-- ==== Sys2Proof/Word.lean ====
section
/-! DEFINITION. The word types: a byte operand, a 16-bit command word, a 64-bit read word or lane, a 12-bit read address. -/

namespace Sys2Proof

/-- The byte operand of PPUSH and TSTEP, 0 to 255 (30_encoding.md R84). -/
abbrev Byte := BitVec 8

/-- A command word (30_encoding.md R80; `CMD_W` = 16 in 00_scope.md R5). -/
abbrev Word16 := BitVec 16

/-- A 64-bit word: one lane, one read result, COUNT, DIST (00_scope.md R5: `LANE_W`, `RDATA_W`, `CNT_W`). -/
abbrev Word64 := BitVec 64

/-- A word address of the read space (00_scope.md R5: `RADDR_W` = 12). -/
abbrev ReadAddr := BitVec 12

end Sys2Proof
end

