-- ==== Sys2Proof/Syntax.lean ====
section
/-! DEFINITION. The commands (one constructor per row of the opcode table), the one command format F16, and what the host can do. -/

namespace Sys2Proof

/-- The eight commands (30_encoding.md R81). -/
inductive Instr where
  /-- 0x0: do nothing (44_control.md R190). -/
  | nop
  /-- 0x1: the soft reset (44_control.md R191). -/
  | rst
  /-- 0x2: start building a Peq table; `policy` is word bit 8 (true: recoverable), `ascii` word bit 9 (30_encoding.md R83). -/
  | pbegin (policy : Bool) (ascii : Bool)
  /-- 0x3: append one pattern byte (41_peq.md R124). -/
  | ppush (b : Byte)
  /-- 0x4: freeze the table or report its error (41_peq.md R125). -/
  | pend
  /-- 0x5: start a text run (43_recurrence.md R164). -/
  | tbegin
  /-- 0x6: consume one text byte (43_recurrence.md R165). -/
  | tstep (b : Byte)
  /-- 0x7: extract the distance (43_recurrence.md R166). -/
  | tend
deriving DecidableEq, Repr

/-- A command word's three fields, format F16 (30_encoding.md R80). A term of this type need not be a legal command:
`F16.wellFormed` is the check. -/
structure F16 where
  op : BitVec 4
  flags : BitVec 4
  byte : Byte
deriving DecidableEq, Repr

/-- What the host may do (20_memory.md R71), one action a step. -/
inductive HostAction where
  /-- Write a command word to the command port; any of the 65536 words (92_eei_decisions.md D32). -/
  | write (w : Word16)
  /-- Read one address of the read space (10_state.md R35). -/
  | read (a : ReadAddr)
  /-- Assert the reset input (70_reset_and_hazards.md R230). -/
  | reset
  /-- Write a command word and assert the reset input before that command has completed: the command is abandoned (R230). -/
  | resetDuring (w : Word16)
  /-- Do nothing. -/
  | idle
deriving DecidableEq, Repr

end Sys2Proof
end

