-- ==== Sys2Proof/WellFormed.lean ====
section
/-! DEFINITION. Which command formats are legal (30_encoding.md R82, R83, R85). The operands of `Instr` are legal by their types. -/

namespace Sys2Proof

/-- FLAGS and BYTE both zero: what NOP, RST, PEND, TBEGIN and TEND need (R82, first clause). -/
def F16.noOperand (f : F16) : Bool := f.flags == 0 && f.byte == 0

/-- The two reserved flags (word bits 10 and 11) and BYTE zero: what PBEGIN needs (R82, second clause; R83). -/
def F16.policyFlagsOnly (f : F16) : Bool := f.flags.extractLsb' 2 2 == 0 && f.byte == 0

/-- FLAGS zero: what PPUSH and TSTEP need (R82, third clause). -/
def F16.byteOnly (f : F16) : Bool := f.flags == 0

/-- A format is legal exactly when one of R82's three clauses holds; opcodes 0x8 to 0xF are reserved (R85). -/
def F16.wellFormed (f : F16) : Bool :=
  if f.op = 0x0 ∨ f.op = 0x1 ∨ f.op = 0x4 ∨ f.op = 0x5 ∨ f.op = 0x7 then f.noOperand
  else if f.op = 0x2 then f.policyFlagsOnly
  else if f.op = 0x3 ∨ f.op = 0x6 then f.byteOnly
  else false

end Sys2Proof
end

