-- ==== Sys2Proof/Decode.lean ====
section
/-! DEFINITION. Decoding a command word, total and rejecting by name, the encoder written from the same tables, and the opcode table as
data (30_encoding.md R80 to R86, opcode_table.json). -/

namespace Sys2Proof

/-- The fields of a word: OP = w[15:12], FLAGS = w[11:8], BYTE = w[7:0] (30_encoding.md R80). -/
def F16.ofWord (w : Word16) : F16 where
  op := w.extractLsb' 12 4
  flags := w.extractLsb' 8 4
  byte := w.extractLsb' 0 8

/-- The word that holds the three fields (30_encoding.md R80). -/
def F16.toWord (f : F16) : Word16 := f.op ++ f.flags ++ f.byte

/-- Why a word is no command (30_encoding.md R82, R85). Each of them raises ILLEGAL_COMMAND. -/
inductive DecodeError where
  /-- Opcode 0x8 to 0xF. -/
  | reservedOpcode (op : BitVec 4)
  /-- A command without flags has a non-zero FLAGS field. -/
  | nonzeroFlags (flags : BitVec 4)
  /-- PBEGIN has a reserved flag (word bit 10 or 11) set. -/
  | reservedFlag (flags : BitVec 4)
  /-- A command without a byte operand has a non-zero BYTE field. -/
  | nonzeroByte (byte : Byte)
deriving DecidableEq, Repr

/-- A command with no operand: both other fields must be zero (30_encoding.md R82). -/
def decodePlain (i : Instr) (f : F16) : Except DecodeError Instr :=
  if f.flags ≠ 0 then .error (.nonzeroFlags f.flags)
  else if f.byte ≠ 0 then .error (.nonzeroByte f.byte)
  else .ok i

/-- PBEGIN: FLAGS bit 0 is POLICY, bit 1 is ASCII, bits 2 and 3 are reserved (30_encoding.md R83). -/
def decodePbegin (f : F16) : Except DecodeError Instr :=
  if f.flags.getLsbD 2 || f.flags.getLsbD 3 then .error (.reservedFlag f.flags)
  else if f.byte ≠ 0 then .error (.nonzeroByte f.byte)
  else .ok (.pbegin (f.flags.getLsbD 0) (f.flags.getLsbD 1))

/-- A command with a byte operand, used as it stands (30_encoding.md R84). -/
def decodeByte (i : Byte → Instr) (f : F16) : Except DecodeError Instr :=
  if f.flags ≠ 0 then .error (.nonzeroFlags f.flags) else .ok (i f.byte)

/-- The opcode map (30_encoding.md R81). -/
def decodeFields (f : F16) : Except DecodeError Instr :=
  match f.op.toNat with
  | 0x0 => decodePlain .nop f
  | 0x1 => decodePlain .rst f
  | 0x2 => decodePbegin f
  | 0x3 => decodeByte .ppush f
  | 0x4 => decodePlain .pend f
  | 0x5 => decodePlain .tbegin f
  | 0x6 => decodeByte .tstep f
  | 0x7 => decodePlain .tend f
  | _ => .error (.reservedOpcode f.op)

/-- The command a word stands for; no mode changes decoding (30_encoding.md R88). -/
def decode (w : Word16) : Except DecodeError Instr := decodeFields (F16.ofWord w)

/-- R82's *legal* for a word. -/
def legalWord (w : Word16) : Bool := (F16.ofWord w).wellFormed

/-- The fields of a command (30_encoding.md R81, R83, R84). -/
def Instr.toF16 : Instr → F16
  | .nop => ⟨0x0, 0, 0⟩
  | .rst => ⟨0x1, 0, 0⟩
  | .pbegin policy ascii => ⟨0x2, 0#2 ++ BitVec.ofBool ascii ++ BitVec.ofBool policy, 0⟩
  | .ppush b => ⟨0x3, 0, b⟩
  | .pend => ⟨0x4, 0, 0⟩
  | .tbegin => ⟨0x5, 0, 0⟩
  | .tstep b => ⟨0x6, 0, b⟩
  | .tend => ⟨0x7, 0, 0⟩

/-- The word of a command. -/
def encode (i : Instr) : Word16 := i.toF16.toWord

/-- A command's fields pass the check of R82. It holds of every term of `Instr`, whose operands have exactly the encoding's ranges. -/
def Instr.wellFormed (i : Instr) : Bool := i.toF16.wellFormed

/-- One row of opcode_table.json: a word is the row's when its bits under `mask` are `bits`. -/
structure OpcodeRow where
  mnemonic : String
  bits : Word16
  mask : Word16
deriving DecidableEq, Repr

/-- The word belongs to the row. -/
def OpcodeRow.covers (r : OpcodeRow) (w : Word16) : Bool := w &&& r.mask == r.bits

/-- opcode_table.json's "match" and "mask" of every row. -/
def opcodeTable : List OpcodeRow :=
  [⟨"NOP", 0x0000, 0xFFFF⟩, ⟨"RST", 0x1000, 0xFFFF⟩, ⟨"PBEGIN", 0x2000, 0xFCFF⟩, ⟨"PPUSH", 0x3000, 0xFF00⟩,
   ⟨"PEND", 0x4000, 0xFFFF⟩, ⟨"TBEGIN", 0x5000, 0xFFFF⟩, ⟨"TSTEP", 0x6000, 0xFF00⟩, ⟨"TEND", 0x7000, 0xFFFF⟩]

/-- The mnemonic of a command in opcode_table.json. -/
def Instr.mnemonic : Instr → String
  | .nop => "NOP"
  | .rst => "RST"
  | .pbegin _ _ => "PBEGIN"
  | .ppush _ => "PPUSH"
  | .pend => "PEND"
  | .tbegin => "TBEGIN"
  | .tstep _ => "TSTEP"
  | .tend => "TEND"

/-- The first command word of an instruction whose bits the opcode table numbers `w`, `nbits` of them given: a word moves whole
(20_memory.md R63, R88), so the table's bits are the word's, and the bits above `nbits` are zero. -/
def tableWord (nbits w : Nat) : Word16 := BitVec.ofNat 16 (w % 2 ^ nbits)

/-- The command the decoder reads from the opcode table's numbering of a word. -/
def decodeTableWord (nbits w : Nat) : Option Instr := (decode (tableWord nbits w)).toOption

end Sys2Proof
end

