-- ==== Sys2Proof/Config.lean ====
section
/-! DEFINITION. What the build fixes (00_scope.md R2, R5): the variant with its width and lanes, and the open parameter CARRY_HINT. -/

namespace Sys2Proof

/-- The two variants of the engine (00_scope.md R2), fixed when the hardware is built. -/
inductive Variant where
  | scalar
  | wide
deriving DecidableEq, Repr

/-- `W`, the width of the register type T: 64 or 512 bits (00_scope.md R2, R5). -/
def Variant.width : Variant → Nat
  | .scalar => 64
  | .wide => 512

/-- `LANES` = W / 64: 1 or 8 (00_scope.md R5). -/
def Variant.lanes : Variant → Nat
  | .scalar => 1
  | .wide => 8

/-- The build that `State.reset` is the reset state of. DESIGN CHOICE (log entry 1): the spec takes the variant as an
argument; every statement is about every state and so about both variants. -/
def Config.variant : Variant := .scalar

/-- `CARRY_HINT` (00_scope.md R5, 42_wide_primitives.md R143): the rounds a WIDE build does without testing for carries.
OPEN in the spec (93_implementation_defined.md item 7), so it has no body here. -/
opaque Config.carryHint : Nat

end Sys2Proof
end

