-- ==== Sys2Proof/Machine/State.lean ====
section
/-! DEFINITION. The machine's state as plain data: every element of 10_state.md R20, the build's variant, and the host's side of the two ports. -/

namespace Sys2Proof.Machine

/-- STATE, the control automaton (10_state.md R28). The encodings 5 and 6 are never taken and have no constructor. -/
inductive CtlState where
  | idle
  | build
  | ready
  | run
  | done
  | fault
deriving DecidableEq, Repr

/-- ERR, the code of the last error or fault (10_state.md R29, 60_exceptions.md R200). Codes 6 to 15 are never written and have no constructor. -/
inductive ErrCode where
  | none
  | patternTooLong
  | nonAscii
  | illegalCommand
  | sequence
  | countOverflow
deriving DecidableEq, Repr

/-- The architectural state of one engine: exactly the elements of 10_state.md R20. -/
structure Engine (v : Variant) where
  /-- PEQ: 256 entries of W bits, indexed by a byte (R30). -/
  peq : Vector (BitVec v.width) 256
  /-- LEN: the recorded pattern length, 0 to W, held in 10 bits (R27). -/
  len : BitVec 10
  /-- VP: the vertical positive delta (R23). -/
  vp : BitVec v.width
  /-- VN: the vertical negative delta (R24). -/
  vn : BitVec v.width
  /-- COUNT: the text bytes the current run has consumed (R25). -/
  count : Word64
  /-- DIST: the distance computed by the last TEND (R26). -/
  dist : Word64
  /-- STATE (R28). -/
  state : CtlState
  /-- ERR (R29). -/
  err : ErrCode
  /-- POLICY: true is the recoverable policy (R31). -/
  policy : Bool
  /-- ASCII: true is the string-based constructor (R31). -/
  ascii : Bool
  /-- PEND_NA: a non-ASCII byte was pushed under ASCII (R32). -/
  pendNa : Bool
  /-- PEND_TL: a byte was pushed at LEN = W (R32). -/
  pendTl : Bool
  /-- FAULT_CMD: the word whose execution raised the fault (R33). -/
  faultCmd : Word16
deriving DecidableEq, Repr

/-- The whole machine: the build, the engine, and the host's side of the command port and of the read port.
`host` and `readLog` are the MODEL's own fields (log entry 2): the engine has no program counter and no instruction memory
(10_state.md R22), so the coming commands are the host's and stand here in the order the host gives them. -/
structure State where
  /-- VARIANT, fixed when the hardware is built (00_scope.md R2). -/
  variant : Variant
  /-- The engine's architectural state. -/
  engine : Engine variant
  /-- The host's coming actions, in order (20_memory.md R71, 70_reset_and_hazards.md R235). -/
  host : List HostAction
  /-- The words the read port has returned to the host, newest first (20_memory.md R60). -/
  readLog : List Word64
deriving DecidableEq, Repr

/-- The one reason the model stops with a fault. What the engine calls a fault (60_exceptions.md R207) is a next state. -/
inductive Fault where
  /-- A primitive was given an operand outside its stated range (40_word.md R109, 92_eei_decisions.md D27): raised by `bitAt`, `uptoW`
  and `shl512`, and through them by TEND in a state with LEN > W, which no run reaches (70_reset_and_hazards.md R239). Safe: the
  hardware would return some value, the model refuses to say which. -/
  | preconditionViolated
deriving DecidableEq, Repr

/-- The reasons the model refuses. -/
inductive Refusal where
  /-- An instruction that has no meaning yet: raised by a refused arm of `exec` only. Every arm has a meaning, so nothing raises it. Safe. -/
  | notModelled (mnemonic : String)
deriving DecidableEq, Repr

/-- The reset values of 70_reset_and_hazards.md R231. -/
def Engine.reset (v : Variant) : Engine v where
  peq := Vector.replicate 256 0
  len := 0
  vp := BitVec.allOnes v.width
  vn := 0
  count := 0
  dist := 0
  state := .idle
  err := .none
  policy := false
  ascii := false
  pendNa := false
  pendTl := false
  faultCmd := 0

/-- The machine right after reset, for the build of each variant, with a host that does nothing. -/
def State.resetOf (v : Variant) : State where
  variant := v
  engine := Engine.reset v
  host := []
  readLog := []

/-- The machine right after reset (70_reset_and_hazards.md R230, R231), for the build `Config.variant` (log entry 1). -/
def State.reset : State := State.resetOf Config.variant

end Sys2Proof.Machine
end

