-- ==== Sys2Proof/Machine/Ops.lean ====
section
/-! DEFINITION. The operations every command is written over: the Peq accesses, fault entry, the recoverable error, the reset that leaves
FAULT, the order in which a command is accepted, and how an engine's answer becomes the machine's outcome. -/

namespace Sys2Proof.Machine

/-- What a command answers about the engine alone: its next state, or the model-level fault of a primitive. -/
abbrev EngineResult (v : Variant) := Except Fault (Engine v)

/-- `PeqRead(c)`: total on bytes (00_scope.md R8, 41_peq.md R121, 20_memory.md R60). -/
def Engine.peqRead {v : Variant} (e : Engine v) (c : Byte) : BitVec v.width := e.peq[c.toNat]'c.isLt

/-- `PeqWrite(c, x)` (00_scope.md R8). -/
def Engine.peqWrite {v : Variant} (e : Engine v) (c : Byte) (x : BitVec v.width) : Engine v :=
  { e with peq := e.peq.set c.toNat x c.isLt }

/-- `for c in 0..255: PeqWrite(c, ZERO)` (20_memory.md R61). -/
def Engine.peqClear {v : Variant} (e : Engine v) : Engine v := { e with peq := Vector.replicate 256 0 }

/-- Fault entry, `raise Fault(code)`, taken by the command whose word is `w`; nothing else changes (60_exceptions.md R207). -/
def Engine.raiseFault {v : Variant} (e : Engine v) (code : ErrCode) (w : Word16) : Engine v :=
  { e with state := .fault, err := code, faultCmd := w }

/-- The recoverable error report, `raise Error(code)` (60_exceptions.md R208). -/
def Engine.raiseError {v : Variant} (e : Engine v) (code : ErrCode) : Engine v :=
  { e.peqClear with len := 0, pendNa := false, pendTl := false, err := code, state := .idle }

/-- The reset event (70_reset_and_hazards.md R230): every element takes its reset value. With it RST and the reset input leave FAULT,
the only ways out (60_exceptions.md R210). -/
def Engine.doReset {v : Variant} (_e : Engine v) : Engine v := Engine.reset v

/-- The states in which a command is accepted (30_encoding.md R87; "accepted_in" of opcode_table.json). The cells this function
answers false in are R87's SEQ cells, and in FAULT the discarded ones. -/
def acceptedIn : Instr → CtlState → Bool
  | .rst, _ => true
  | .nop, q => q != .fault
  | .pbegin _ _, q => q != .fault
  | .ppush _, q => q == .build
  | .pend, q => q == .build
  | .tbegin, q => q == .ready || q == .run || q == .done
  | .tstep _, q => q == .run
  | .tend, q => q == .run

/-- A legal command's decoding order (30_encoding.md R86): accepted, it runs; not accepted, in FAULT it is discarded (60_exceptions.md R209)
and in any other state it raises SEQUENCE with its own word (R204). -/
def gated {v : Variant} (i : Instr) (body : Engine v → EngineResult v) (e : Engine v) : EngineResult v :=
  if acceptedIn i e.state then body e
  else if e.state = .fault then .ok e
  else .ok (e.raiseFault .sequence (encode i))

/-- The machine's outcome from the engine's answer: only the engine changes. -/
def State.onEngine (s : State) (f : Engine s.variant → EngineResult s.variant) : Host.Outcome State Fault Refusal :=
  match f s.engine with
  | .ok e => .next { s with engine := e }
  | .error r => .fault r

/-- The machine after the reset input or RST: the engine is reset, the build and the host's side are not the engine's (R230). -/
def State.resetEngine (s : State) : State := { s with engine := s.engine.doReset }

end Sys2Proof.Machine
end

