-- ==== Sys2Proof/Machine/Control.lean ====
section
/-! DEFINITION. The control commands NOP and RST (44_control.md). -/

namespace Sys2Proof.Machine

/-- NOP: no state changes, in every state (44_control.md R190; in FAULT it is discarded, which is the same). -/
def execNop (s : State) : Host.Outcome State Fault Refusal := s.onEngine (gated .nop Except.ok)

/-- RST: the reset of R230, accepted in every state and the only command FAULT does not discard (44_control.md R191). -/
def execRst (s : State) : Host.Outcome State Fault Refusal := s.onEngine (gated .rst fun e => .ok e.doReset)

end Sys2Proof.Machine
end

