-- ==== Sys2Proof/Machine/Words.lean ====
section
/-! DEFINITION. The Word capability and the scalar native operations (40_word.md), and the lanes of a register (00_scope.md R6).
ZERO, ONE and ONES (00_scope.md R9) are `0#w`, `1#w` and `BitVec.allOnes w`; the bitwise operations are those of `BitVec` (R7, R103). -/

namespace Sys2Proof.Machine

/-- `bit_at(i)`: exactly bit i set; outside 0 ≤ i < W the fault of R109 (40_word.md R101). -/
def bitAt (v : Variant) (i : Nat) : Except Fault (BitVec v.width) :=
  if i < v.width then .ok (1#v.width <<< i) else .error .preconditionViolated

/-- `bit_or(a, b)` (40_word.md R102). -/
def bitOr {w : Nat} (a b : BitVec w) : BitVec w := a ||| b

/-- `ADD64(a, b)`: wraparound addition, the carry out of bit 63 is lost (40_word.md R104). -/
def add64 (a b : Word64) : Word64 := a + b

/-- `SHL1_64(a)` (40_word.md R105). -/
def shl1_64 (a : Word64) : Word64 := a <<< 1

/-- `MASK64(len)`: the lowest `len` bits set, exact at len = 64 (40_word.md R106). -/
def mask64 (len : Nat) : Except Fault Word64 :=
  if len ≤ 64 then .ok (BitVec.ofNat 64 (2 ^ len - 1)) else .error .preconditionViolated

/-- How many of the lowest `n` bits of `a` are set. -/
def countBits {w : Nat} (a : BitVec w) : Nat → Nat
  | 0 => 0
  | n + 1 => countBits a n + (a.getLsbD n).toNat

/-- `POPCOUNT64(a)` (40_word.md R107). -/
def popcount64 (a : Word64) : Nat := countBits a 64

/-- `lane_j(v) = v[64j+63:64j]` (00_scope.md R6). -/
def lane {w : Nat} (a : BitVec w) (j : Nat) : Word64 := a.extractLsb' (64 * j) 64

/-- The lanes of a 512-bit register, lane 0 first (00_scope.md R6). -/
def lanesOf (a : BitVec 512) : List Word64 := (List.range 8).map (lane a)

/-- The 512-bit register with the given lanes, lane 0 first. -/
def ofLanes (ls : List Word64) : BitVec 512 := ls.foldr (fun x rest => (rest <<< 64) ||| x.setWidth 512) 0

end Sys2Proof.Machine
end

