-- ==== Sys2Proof/Machine/Wide.lean ====
section
/-! DEFINITION. The wide-integer primitives of the WIDE variant (42_wide_primitives.md R140 to R148): functions of their operands only. -/

namespace Sys2Proof.Machine

/-- `ADD512(a, b)`: one big-integer addition modulo 2^512. R140 is the normative definition; the lane procedure of R141 to R143
is `carryAdd`. -/
def add512 (a b : BitVec 512) : BitVec 512 := a + b

/-- The carry-add between two rounds: the lanes' sums S_j, the carries c_j out of them, and the rounds done (R142). -/
structure CarryState where
  sums : List Word64
  carries : List Bool
  rounds : Nat
deriving DecidableEq, Repr

/-- Round 0: lane-wise addition; a lane wrapped when its sum is below an operand (R141). -/
def carryStart (a b : BitVec 512) : CarryState :=
  let sums := List.zipWith (· + ·) (lanesOf a) (lanesOf b)
  { sums := sums, carries := List.zipWith BitVec.ult sums (lanesOf a), rounds := 0 }

/-- One carry round: every lane takes the carry of the lane below it, all lanes together (R142). -/
def carryRound (c : CarryState) : CarryState :=
  let sums := List.zipWith (fun s cin => s + (BitVec.ofBool cin).setWidth 64) c.sums (false :: c.carries)
  { sums := sums, carries := List.zipWith BitVec.ult sums c.sums, rounds := c.rounds + 1 }

/-- The loop's condition: a lane below the top one has wrapped; c_7 has no higher lane and is lost (R142). -/
def carryPending (c : CarryState) : Bool := (c.carries.take 7).any id

/-- The loop of R142, at most `fuel` rounds of it. -/
def carryLoop : Nat → CarryState → CarryState
  | 0, c => c
  | fuel + 1, c => if carryPending c then carryLoop fuel (carryRound c) else c

/-- `n` rounds done without testing for carries (R143). -/
def carryBlind : Nat → CarryState → CarryState
  | 0, c => c
  | n + 1, c => carryBlind n (carryRound c)

/-- The whole lane procedure of a build with the given CARRY_HINT: round 0, `hint` rounds without a test, then the loop (R141 to R143).
R143 bounds the loop by 7 rounds. -/
def carryAdd (hint : Nat) (a b : BitVec 512) : CarryState := carryLoop 7 (carryBlind hint (carryStart a b))

/-- The sum as the build's lane procedure gives it. -/
def add512Built (a b : BitVec 512) : BitVec 512 := ofLanes (carryAdd Config.carryHint a b).sums

/-- The lanes of `SHL512(a, n)`: each lane's native shift plus the top n bits of the lane below (R144). -/
def shlLanes (a : BitVec 512) (n : Nat) : List Word64 :=
  let shifted := (lanesOf a).map (fun x : Word64 => x <<< n)
  let fromBelow := (lanesOf a).map (fun x : Word64 => if n = 0 then (0 : Word64) else x >>> (64 - n))
  List.zipWith (· + ·) shifted (0 :: fromBelow)

/-- `SHL512(a, N)`: the cross-lane left shift; for N > 64 the fault of R109 (R144). -/
def shl512 (a : BitVec 512) (n : Nat) : Except Fault (BitVec 512) :=
  if n ≤ 64 then .ok (ofLanes (shlLanes a n)) else .error .preconditionViolated

/-- `SHL512(a, 1)`, the one shift the engine uses: N = 1 is within the precondition, so it has a value (R144, 70_reset_and_hazards.md R239). -/
def shl512One (a : BitVec 512) : BitVec 512 := ofLanes (shlLanes a 1)

/-- Lane j of `UPTO512(i)` (R145). -/
def uptoLane (i j : Nat) : Word64 :=
  if 64 * (j + 1) ≤ i then BitVec.allOnes 64
  else if 64 * j ≤ i then BitVec.ofNat 64 (2 ^ (i - 64 * j) - 1)
  else 0

/-- `UPTO512(i)`: bits [0, i) set and the others clear; for i > 512 the fault of R109 (R145). -/
def upto512 (i : Nat) : Except Fault (BitVec 512) :=
  if i ≤ 512 then .ok (ofLanes ((List.range 8).map (uptoLane i))) else .error .preconditionViolated

/-- `POPCOUNT512(a)`: each lane counted on its own, then summed (R146). -/
def popcount512 (a : BitVec 512) : Nat := ((lanesOf a).map popcount64).sum

end Sys2Proof.Machine
end

