-- ==== Sys2Proof/Machine/Operands.lean ====
section
/-! DEFINITION. The byte operand, and the four operations whose implementation depends on the variant (40_word.md R108). -/

namespace Sys2Proof.Machine

/-- A byte the string-based constructor rejects: one ≥ 0x80 (60_exceptions.md R202, 92_eei_decisions.md D10). -/
def nonAscii (b : Byte) : Bool := decide (0x80 ≤ b.toNat)

/-- `ADD_W` (40_word.md R108; 43_recurrence.md R162, R163). -/
def addW (v : Variant) (a b : BitVec v.width) : BitVec v.width :=
  match v, a, b with
  | .scalar, a, b => add64 a b
  | .wide, a, b => add512 a b

/-- `SHL1_W` (40_word.md R108; 43_recurrence.md R162, R163). -/
def shl1W (v : Variant) (a : BitVec v.width) : BitVec v.width :=
  match v, a with
  | .scalar, a => shl1_64 a
  | .wide, a => shl512One a

/-- `UPTO_W` (40_word.md R108): the fault of R109 for i > W. -/
def uptoW (v : Variant) (i : Nat) : Except Fault (BitVec v.width) :=
  match v with
  | .scalar => mask64 i
  | .wide => upto512 i

/-- `POPCOUNT_W` (40_word.md R108). -/
def popcountW (v : Variant) (a : BitVec v.width) : Nat :=
  match v, a with
  | .scalar, a => popcount64 a
  | .wide, a => popcount512 a

end Sys2Proof.Machine
end

