-- ==== Sys2Proof/Machine/Flags.lean ====
section
/-! DEFINITION. The status fields: their encodings, the STATUS word (10_state.md R36), and which of them a command computes. -/

namespace Sys2Proof.Machine

/-- STATE's encoding (10_state.md R28). -/
def CtlState.code : CtlState → BitVec 3
  | .idle => 0
  | .build => 1
  | .ready => 2
  | .run => 3
  | .done => 4
  | .fault => 7

/-- ERR's encoding (60_exceptions.md R200). -/
def ErrCode.code : ErrCode → BitVec 4
  | .none => 0
  | .patternTooLong => 1
  | .nonAscii => 2
  | .illegalCommand => 3
  | .sequence => 4
  | .countOverflow => 5

/-- STATUS: [2:0] STATE, [3] 0, [7:4] ERR, [8] PEND_NA, [9] PEND_TL, [10] POLICY, [11] ASCII, the rest 0 (10_state.md R36). -/
def Engine.status {v : Variant} (e : Engine v) : Word64 :=
  0#52 ++ BitVec.ofBool e.ascii ++ BitVec.ofBool e.policy ++ BitVec.ofBool e.pendTl ++ BitVec.ofBool e.pendNa
    ++ e.err.code ++ 0#1 ++ e.state.code

/-- PEND_NA after a PPUSH of `b`: set only, never cleared (10_state.md R32, 41_peq.md R124). -/
def Engine.pendNaAfter {v : Variant} (e : Engine v) (b : Byte) : Bool := e.pendNa || (e.ascii && nonAscii b)

/-- The construction error PEND reports, if any: NON_ASCII before PATTERN_TOO_LONG (41_peq.md R125, 60_exceptions.md R211). -/
def Engine.pendingError {v : Variant} (e : Engine v) : Option ErrCode :=
  if e.pendNa then some .nonAscii
  else if e.pendTl then some .patternTooLong
  else none

end Sys2Proof.Machine
end

