-- ==== Sys2Proof/Machine/Peq.lean ====
section
/-! DEFINITION. The commands that build the Peq table: PBEGIN, PPUSH, PEND (41_peq.md). -/

namespace Sys2Proof.Machine

/-- The engine at the start of every run: "VP = all bits set, VN = all bits clear", COUNT and DIST zero (43_recurrence.md R160;
PBEGIN and TBEGIN both do it, 92_eei_decisions.md D26). -/
def Engine.clearRun {v : Variant} (e : Engine v) : Engine v :=
  { e with vp := BitVec.allOnes v.width, vn := 0, count := 0, dist := 0 }

/-- PBEGIN's effect (41_peq.md R123). -/
def Engine.startBuild {v : Variant} (e : Engine v) (policy ascii : Bool) : Engine v :=
  { e.peqClear.clearRun with
    len := 0, policy := policy, ascii := ascii, pendNa := false, pendTl := false, err := .none, state := .build }

/-- PPUSH's effect (41_peq.md R124): the pending flag, then either bit LEN of entry `b` and LEN + 1, or PEND_TL. -/
def Engine.pushByte {v : Variant} (b : Byte) (e : Engine v) : EngineResult v :=
  let e := { e with pendNa := e.pendNaAfter b }
  if e.len.toNat < v.width then
    (bitAt v e.len.toNat).map fun bit => { e.peqWrite b (bitOr (e.peqRead b) bit) with len := e.len + 1 }
  else .ok { e with pendTl := true }

/-- PEND's effect (41_peq.md R125), for the command word `w`. -/
def Engine.endBuild {v : Variant} (w : Word16) (e : Engine v) : Engine v :=
  match e.pendingError with
  | none => { e with state := .ready }
  | some code => if e.policy then e.raiseError code else e.raiseFault code w

/-- PBEGIN: start building a Peq table (41_peq.md R123). -/
def execPbegin (policy ascii : Bool) (s : State) : Host.Outcome State Fault Refusal :=
  s.onEngine (gated (.pbegin policy ascii) fun e => .ok (e.startBuild policy ascii))

/-- PPUSH b: append one pattern byte (41_peq.md R124). -/
def execPpush (b : Byte) (s : State) : Host.Outcome State Fault Refusal :=
  s.onEngine (gated (.ppush b) (Engine.pushByte b))

/-- PEND: finish and freeze the table, or report its error (41_peq.md R125). -/
def execPend (s : State) : Host.Outcome State Fault Refusal :=
  s.onEngine (gated .pend fun e => .ok (e.endBuild (encode .pend)))

end Sys2Proof.Machine
end

