-- ==== Sys2Proof/Machine/Recurrence.lean ====
section
/-! DEFINITION. The recurrence and the run commands TBEGIN, TSTEP, TEND (43_recurrence.md). -/

namespace Sys2Proof.Machine

/-- The named values of one recurrence step (43_recurrence.md R161; transient, 10_state.md R41). `hpShifted` is hp after its shift,
`vp` and `vn` are VP' and VN'. -/
structure RecurrenceTrace (w : Nat) where
  sum : BitVec w
  d0 : BitVec w
  hp : BitVec w
  hn : BitVec w
  xh : BitVec w
  hpShifted : BitVec w
  vp : BitVec w
  vn : BitVec w
deriving DecidableEq, Repr

/-- `STEP(eq, VP, VN)` (43_recurrence.md R161), with the variant's ADD_W and SHL1_W (R162, R163). -/
def recurrence (v : Variant) (eq vp vn : BitVec v.width) : RecurrenceTrace v.width :=
  let sum := addW v (eq &&& vp) vp
  let d0 := (sum ^^^ vp) ||| eq
  let hp := vn ||| ~~~(vp ||| d0)
  let hn := vp &&& d0
  let xh := eq ||| vn
  let hpShifted := shl1W v hp ||| 1#v.width
  { sum := sum, d0 := d0, hp := hp, hn := hn, xh := xh, hpShifted := hpShifted
    vp := shl1W v hn ||| ~~~(xh ||| hpShifted), vn := hpShifted &&& xh }

/-- TBEGIN's effect (43_recurrence.md R164): PEQ and LEN are not touched. -/
def Engine.startRun {v : Variant} (e : Engine v) : Engine v := { e.clearRun with state := .run }

/-- TSTEP's effect (43_recurrence.md R165), for the command word `w`. -/
def Engine.consume {v : Variant} (w : Word16) (b : Byte) (e : Engine v) : Engine v :=
  if e.count = BitVec.allOnes 64 then e.raiseFault .countOverflow w
  else
    let r := recurrence v (e.peqRead b) e.vp e.vn
    { e with vp := r.vp, vn := r.vn, count := e.count + 1 }

/-- The distance under a mask, computed exactly and then reduced mod 2^64 (43_recurrence.md R166). -/
def Engine.maskedDistance {v : Variant} (e : Engine v) (mask : BitVec v.width) : Word64 :=
  BitVec.ofInt 64 ((e.count.toNat : Int) + popcountW v (e.vp &&& mask) - popcountW v (e.vn &&& mask))

/-- TEND's effect (43_recurrence.md R166). -/
def Engine.extract {v : Variant} (e : Engine v) : EngineResult v :=
  (uptoW v e.len.toNat).map fun mask => { e with dist := e.maskedDistance mask, state := .done }

/-- TBEGIN: start a text run against the current Peq table (43_recurrence.md R164). -/
def execTbegin (s : State) : Host.Outcome State Fault Refusal :=
  s.onEngine (gated .tbegin fun e => .ok e.startRun)

/-- TSTEP b: consume one text byte (43_recurrence.md R165). -/
def execTstep (b : Byte) (s : State) : Host.Outcome State Fault Refusal :=
  s.onEngine (gated (.tstep b) fun e => .ok (e.consume (encode (.tstep b)) b))

/-- TEND: extract the distance (43_recurrence.md R166). -/
def execTend (s : State) : Host.Outcome State Fault Refusal := s.onEngine (gated .tend Engine.extract)

end Sys2Proof.Machine
end

