-- ==== Sys2Proof/Machine/Dispatch.lean ====
section
/-! DEFINITION. One arm per command: each calls its meaning. -/

namespace Sys2Proof.Machine

def exec (i : Instr) (s : State) : Host.Outcome State Fault Refusal :=
  match i with
  | .nop => Sys2Proof.Machine.execNop s
  | .rst => Sys2Proof.Machine.execRst s
  | .pbegin policy ascii => Sys2Proof.Machine.execPbegin policy ascii s
  | .ppush b => Sys2Proof.Machine.execPpush b s
  | .pend => Sys2Proof.Machine.execPend s
  | .tbegin => Sys2Proof.Machine.execTbegin s
  | .tstep b => Sys2Proof.Machine.execTstep b s
  | .tend => Sys2Proof.Machine.execTend s

end Sys2Proof.Machine
end

