-- ==== Sys2Proof/Machine/ReadPort.lean ====
section
/-! DEFINITION. The register read map (10_state.md R34 to R38). A read is a function of the engine: it changes nothing. -/

namespace Sys2Proof.Machine

/-- ID_CFG: [15:0] W, [23:16] LANES, [24] VARIANT, the rest 0 (10_state.md R34). -/
def idCfg (v : Variant) : Word64 :=
  0#39 ++ BitVec.ofBool (decide (v = .wide)) ++ BitVec.ofNat 8 v.lanes ++ BitVec.ofNat 16 v.width

/-- A lane window: lane j for j < LANES, else 0 (10_state.md R35, R37). -/
def laneWindow (v : Variant) (a : BitVec v.width) (j : Nat) : Word64 := if j < v.lanes then lane a j else 0

/-- The value a read of address `a` returns (10_state.md R35); every reserved address reads 0 (R37). -/
def Engine.readPort {v : Variant} (e : Engine v) (a : ReadAddr) : Word64 :=
  let n := a.toNat
  if n = 0x000 then idCfg v
  else if n = 0x001 then e.status
  else if n = 0x002 then e.len.setWidth 64
  else if n = 0x003 then e.count
  else if n = 0x004 then e.dist
  else if n = 0x005 then e.faultCmd.setWidth 64
  else if 0x010 ≤ n ∧ n < 0x018 then laneWindow v e.vp (n - 0x010)
  else if 0x018 ≤ n ∧ n < 0x020 then laneWindow v e.vn (n - 0x018)
  else if 0x400 ≤ n ∧ n < 0xC00 then laneWindow v (e.peqRead (BitVec.ofNat 8 ((n - 0x400) / 8))) ((n - 0x400) % 8)
  else 0

end Sys2Proof.Machine
end

