-- ==== Sys2Proof/Machine/Ports.lean ====
section
/-! DEFINITION. The command port, the read port and the reset input: what one action of the host does (20_memory.md R71). -/

namespace Sys2Proof.Machine

/-- One command word, in the order of 30_encoding.md R86: a legal word runs its command (which is discarded in FAULT, or raises SEQUENCE,
by `gated`); an illegal word is discarded in FAULT (60_exceptions.md R209) and raises ILLEGAL_COMMAND in every other state (R203). -/
def issue (w : Word16) (s : State) : Host.Outcome State Fault Refusal :=
  match decode w with
  | .ok i => exec i s
  | .error _ =>
    if s.engine.state = .fault then .next s
    else .next { s with engine := s.engine.raiseFault .illegalCommand w }

/-- One action of the host: a command word is one atomic step (70_reset_and_hazards.md R235), a read returns a word and changes no
state element (10_state.md R38), reset takes priority over a command in progress and abandons it (R230), and while the host does
nothing the engine holds its state (60_exceptions.md R217). -/
def serve (h : HostAction) (s : State) : Host.Outcome State Fault Refusal :=
  match h with
  | .write w => issue w s
  | .read a => .next { s with readLog := s.engine.readPort a :: s.readLog }
  | .reset => .next s.resetEngine
  | .resetDuring _ => .next s.resetEngine
  | .idle => .next s

/-- The next action of the host is taken from the front of `host`; a host with no further action does nothing for good. -/
def serveNext (s : State) : Host.Outcome State Fault Refusal :=
  match s.host with
  | [] => .next s
  | h :: rest => serve h { s with host := rest }

/-- `s` with the host about to write the word `w`. -/
def State.aboutToWrite (s : State) (w : Word16) : State := { s with host := .write w :: s.host }

end Sys2Proof.Machine
end

