-- ==== Sys2Proof/Machine/Step.lean ====
section
/-! DEFINITION. One step of the machine, and the state in which the next step runs a given command word. -/

namespace Sys2Proof.Machine

/-- One step: the host's next action (20_memory.md R67, R71). The engine fetches nothing (70_reset_and_hazards.md R232). -/
def step (s : State) : Host.Outcome State Fault Refusal := serveNext s

/-- `s` with the given instruction as the next command word the host writes, so that the next step runs it (log entry 3). -/
def State.withFetchWord (s : State) (nbits w : Nat) : State := s.aboutToWrite (tableWord nbits w)

end Sys2Proof.Machine
end

