-- ==== Sys2Proof/Machine/Sequences.lean ====
section
/-! DEFINITION. The host command sequences of 30_encoding.md R92 and R93: the source's entry points as lists of command words. -/

namespace Sys2Proof.Machine

/-- `PSTR`: one PPUSH per byte, in order; no command for the empty string (30_encoding.md R92). -/
def pstr (p : List Byte) : List Word16 := p.map fun b => encode (.ppush b)

/-- `TSTR`: one TSTEP per byte, in order (30_encoding.md R92). -/
def tstr (t : List Byte) : List Word16 := t.map fun b => encode (.tstep b)

/-- PBEGIN with the given flags, the pattern, PEND: the construction (30_encoding.md R93). -/
def construction (policy ascii : Bool) (p : List Byte) : List Word16 :=
  encode (.pbegin policy ascii) :: pstr p ++ [encode .pend]

/-- `EDIT_DISTANCE_WITH_PEQ T`: TBEGIN, the text, TEND (30_encoding.md R93). -/
def editDistanceWithPeq (t : List Byte) : List Word16 := encode .tbegin :: tstr t ++ [encode .tend]

/-- `EDIT_DISTANCE P, T`, under the trusted policy (30_encoding.md R93). -/
def editDistance (p t : List Byte) : List Word16 := construction false false p ++ editDistanceWithPeq t

/-- The first part of `TRY_EDIT_DISTANCE P, T`: the construction under the recoverable policy, after which the host reads STATUS
(30_encoding.md R93). -/
def tryConstruction (p : List Byte) : List Word16 := construction true false p

/-- The rest of `TRY_EDIT_DISTANCE P, T`, issued on what the host has seen of STATE: the run if READY, nothing more otherwise
(30_encoding.md R93). -/
def tryRun (t : List Byte) (seen : CtlState) : List Word16 := if seen = .ready then editDistanceWithPeq t else []

/-- `PEQ_FROM_STR P`: the string-based constructor under a policy (30_encoding.md R93). -/
def peqFromStr (policy : Bool) (p : List Byte) : List Word16 := construction policy true p

/-- The host's actions that write the words, in order. -/
def writes (ws : List Word16) : List HostAction := ws.map HostAction.write

end Sys2Proof.Machine
end

