-- ==== Sys2Proof/Machine/Assembler.lean ====
section
/-! DEFINITION. The assembler syntax of 30_encoding.md R89, R90 and R92: text to command words, one command per line.
What those rules leave open (white space, the end of the mnemonic, number forms, a `;` inside a literal, a quote or a backslash in a string
literal, PBEGIN's comma) is the model's choice, log entry 4. -/

namespace Sys2Proof.Machine

/-- Why a line assembles to no word (30_encoding.md R90: "an assembly error: no word is produced"). -/
inductive AsmError where
  /-- The line's first word is no mnemonic of R89 and no pseudo-instruction of R92. -/
  | unknownMnemonic
  /-- The operands have none of the forms of R89, R90, R92. -/
  | badOperand
deriving DecidableEq, Repr

/-- A space or a tab. -/
def isBlank (c : Char) : Bool := c.toNat == 32 || c.toNat == 9

/-- The text without blanks at either end. -/
def trimBlanks (t : List Char) : List Char := ((t.dropWhile isBlank).reverse.dropWhile isBlank).reverse

/-- The text before the comment: a `;` starts a comment unless it stands inside a string literal or is the character of a character
literal (30_encoding.md R89; the two exceptions are log entry 4). `inString` says whether the text so far has an open string. -/
def stripComment : Bool → List Char → List Char
  | _, [] => []
  | true, c :: t => c :: stripComment (c.toNat != 34) t
  | false, a :: b :: c :: t =>
    if a.toNat = 39 ∧ c.toNat = 39 then a :: b :: c :: stripComment false t
    else if a.toNat = 59 then [] else a :: stripComment (a.toNat == 34) (b :: c :: t)
  | false, a :: t => if a.toNat = 59 then [] else a :: stripComment (a.toNat == 34) t

/-- Printable ASCII, 0x20 to 0x7E. PRESUMED (log entry 12). -/
def isPrintable (c : Char) : Bool := decide (0x20 ≤ c.toNat) && decide (c.toNat ≤ 0x7E)

/-- The value of a digit in the given base (10 or 16, either case). -/
def digitValue (base : Nat) (c : Char) : Option Nat :=
  let n := c.toNat
  let d := if 48 ≤ n ∧ n ≤ 57 then some (n - 48)
    else if 65 ≤ n ∧ n ≤ 70 then some (n - 55)
    else if 97 ≤ n ∧ n ≤ 102 then some (n - 87)
    else none
  d.filter fun x => decide (x < base)

/-- The value of a run of digits, most significant first, continuing from `acc`. -/
def digitsValue (base : Nat) : Nat → List Char → Option Nat
  | acc, [] => some acc
  | acc, c :: t =>
    match digitValue base c with
    | some d => digitsValue base (acc * base + d) t
    | none => none

/-- A non-empty number with a value of 0 to 255. -/
def numberByte (base : Nat) (t : List Char) : Option Byte :=
  if t.isEmpty then none
  else ((digitsValue base 0 t).filter fun n => decide (n ≤ 255)).map (BitVec.ofNat 8)

/-- A `<byte>` operand: a decimal number, a hexadecimal one after `0x`, or a character literal of one printable ASCII character
(30_encoding.md R90). -/
def byteOperand : List Char → Option Byte
  | [q, c, q'] =>
    if q.toNat = 39 ∧ q'.toNat = 39 then (if isPrintable c then some (BitVec.ofNat 8 c.toNat) else none)
    else if q.toNat = 48 ∧ c.toNat = 120 then numberByte 16 [q']
    else numberByte 10 [q, c, q']
  | z :: x :: t => if z.toNat = 48 ∧ x.toNat = 120 then numberByte 16 t else numberByte 10 (z :: x :: t)
  | t => numberByte 10 t

/-- The bytes of a string literal whose opening quote has been read: printable ASCII characters, `\xHH` for any byte, then the closing
quote at the end of the line (30_encoding.md R92). DESIGN CHOICE (log entry 4): a backslash that does not begin `\xHH`, and a quote before the
end, make the literal an error; the two digits may be of either case. -/
def stringBody : List Char → Option (List Byte)
  | [] => none
  | [c] => if c.toNat = 34 then some [] else none
  | c :: x :: h :: l :: t =>
    if c.toNat = 92 then
      if x.toNat = 120 then
        match numberByte 16 [h, l] with
        | some b => (stringBody t).map fun bs => b :: bs
        | none => none
      else none
    else if c.toNat ≠ 34 ∧ isPrintable c then (stringBody (x :: h :: l :: t)).map fun bs => BitVec.ofNat 8 c.toNat :: bs
    else none
  | c :: t =>
    if c.toNat ≠ 34 ∧ c.toNat ≠ 92 ∧ isPrintable c then (stringBody t).map fun bs => BitVec.ofNat 8 c.toNat :: bs else none

/-- A string literal (30_encoding.md R92). -/
def stringOperand : List Char → Option (List Byte)
  | q :: t => if q.toNat = 34 then stringBody t else none
  | [] => none

/-- PBEGIN's operands `[trusted|recoverable] [, ascii]` as (POLICY, ASCII); the default is trusted, no ascii (30_encoding.md R89). -/
def pbeginOperands (t : List Char) : Option (Bool × Bool) :=
  let first := trimBlanks (t.takeWhile fun c => c.toNat != 44)
  let rest := t.dropWhile fun c => c.toNat != 44
  let policy : Option Bool :=
    if first = [] ∨ first = "trusted".toList then some false
    else if first = "recoverable".toList then some true
    else none
  let ascii : Option Bool :=
    match rest with
    | [] => some false
    | _ :: a => if trimBlanks a = "ascii".toList then some true else none
  match policy, ascii with
  | some p, some a => some (p, a)
  | _, _ => none

/-- A command with no operand. -/
def asmPlain (i : Instr) (operands : List Char) : Except AsmError (List Word16) :=
  if operands = [] then .ok [encode i] else .error .badOperand

/-- The words of an operand read, or the error. -/
def asmOperand {α : Type} (o : Option α) (words : α → List Word16) : Except AsmError (List Word16) :=
  match o with
  | some x => .ok (words x)
  | none => .error .badOperand

/-- The words of a command from its mnemonic, in capitals, and its operands (30_encoding.md R89, R90, R92); none for the empty mnemonic. -/
def assembleCommand (mnemonic operands : List Char) : Except AsmError (List Word16) :=
  if mnemonic = [] then .ok []
  else if mnemonic = "NOP".toList then asmPlain .nop operands
  else if mnemonic = "RST".toList then asmPlain .rst operands
  else if mnemonic = "PBEGIN".toList then asmOperand (pbeginOperands operands) fun o => [encode (.pbegin o.1 o.2)]
  else if mnemonic = "PPUSH".toList then asmOperand (byteOperand operands) fun b => [encode (.ppush b)]
  else if mnemonic = "PEND".toList then asmPlain .pend operands
  else if mnemonic = "TBEGIN".toList then asmPlain .tbegin operands
  else if mnemonic = "TSTEP".toList then asmOperand (byteOperand operands) fun b => [encode (.tstep b)]
  else if mnemonic = "TEND".toList then asmPlain .tend operands
  else if mnemonic = "PSTR".toList then asmOperand (stringOperand operands) pstr
  else if mnemonic = "TSTR".toList then asmOperand (stringOperand operands) tstr
  else .error .unknownMnemonic

/-- One line of assembler text: its words, none for a line with no command (30_encoding.md R89, R90, R92). Mnemonics are not
case-sensitive. DESIGN CHOICE (log entry 4): the mnemonic ends at the first blank and nowhere else, so `PBEGIN, ascii` and `PPUSH'A'` are
unknown mnemonics. -/
def assembleLine (line : List Char) : Except AsmError (List Word16) :=
  let text := trimBlanks (stripComment false line)
  let mnemonic := (text.takeWhile fun c => !isBlank c).map Char.toUpper
  let operands := trimBlanks (text.dropWhile fun c => !isBlank c)
  assembleCommand mnemonic operands

/-- Assembler text, one command per line: the words of its lines in order, or the first line's error. -/
def assemble : List (List Char) → Except AsmError (List Word16)
  | [] => .ok []
  | line :: rest =>
    match assembleLine line with
    | .error e => .error e
    | .ok ws =>
      match assemble rest with
      | .error e => .error e
      | .ok more => .ok (ws ++ more)

end Sys2Proof.Machine
end

