-- ==== Sys2Proof/Safety.lean ====
section
/-! DEFINITION. The terms claims use: the edit distance the engine is held to, what a table and a run hold, the invariant of the
reachable states, and when two engines agree. The machine itself uses none of it. -/

namespace Sys2Proof.Machine

/-- One row of the matrix D from the row above it, `prev` (00_scope.md R10); `i` is the index of the pattern byte `p`. -/
def editRow (t : List Byte) (p : Option Byte) (i : Nat) (prev : Nat → Nat) : Nat → Nat
  | 0 => i + 1
  | j + 1 => min (min (prev (j + 1) + 1) (editRow t p i prev j + 1)) (prev j + if p = t[j]? then 0 else 1)

/-- `D[i][j]` of 00_scope.md R10 (the spec marks the recurrence as general knowledge, 93_implementation_defined.md G1). -/
def editMatrix (p t : List Byte) : Nat → Nat → Nat
  | 0 => fun j => j
  | i + 1 => editRow t p[i]? i (editMatrix p t i)

/-- `lev(P, T)`: the unit-cost Levenshtein distance (00_scope.md R10). -/
def lev (p t : List Byte) : Nat := editMatrix p t p.length t.length

/-- The engine's table is the table of the pattern `p` (41_peq.md R120): bit i of entry c is set exactly when P[i] = c. -/
def Engine.HoldsPattern {v : Variant} (e : Engine v) (p : List Byte) : Prop :=
  p.length ≤ v.width ∧ e.len.toNat = p.length ∧
    ∀ (c : Byte) (i : Nat), (e.peqRead c).getLsbD i = decide (p[i]? = some c)

/-- The engine is in a run of pattern `p` that has consumed the text `t`: COUNT is its length, and below LEN the bits of VP and VN are
the vertical differences of column |t| of the matrix (43_recurrence.md R172). -/
def Engine.HasConsumed {v : Variant} (e : Engine v) (p t : List Byte) : Prop :=
  e.state = .run ∧ e.HoldsPattern p ∧ e.count.toNat = t.length ∧
    ∀ i < p.length,
      e.vp.getLsbD i = decide (editMatrix p t (i + 1) t.length = editMatrix p t i t.length + 1) ∧
      e.vn.getLsbD i = decide (editMatrix p t (i + 1) t.length + 1 = editMatrix p t i t.length)

/-- What every reachable state of the engine satisfies; each field names the rule it comes from. -/
structure Engine.Inv {v : Variant} (e : Engine v) : Prop where
  /-- LEN is 0 to W (10_state.md R27). -/
  lenBound : e.len.toNat ≤ v.width
  /-- No entry has a bit at or above LEN (41_peq.md R120). -/
  peqAboveLen : ∀ (c : Byte) (i : Nat), e.len.toNat ≤ i → (e.peqRead c).getLsbD i = false
  /-- Each position below LEN is set in exactly one entry (41_peq.md R120). -/
  peqOneEntry : ∀ i < e.len.toNat, ∃ c, ∀ c', (e.peqRead c').getLsbD i = decide (c' = c)
  /-- No position is both a positive and a negative vertical delta (43_recurrence.md R160, R161). -/
  deltasDisjoint : e.vp &&& e.vn = 0
  /-- In IDLE there is no table (10_state.md R28). -/
  idleEmpty : e.state = .idle → e.len = 0
  /-- Before a run the run registers hold their start values (92_eei_decisions.md D26). -/
  notStarted : e.state = .idle ∨ e.state = .build ∨ e.state = .ready →
    e.vp = BitVec.allOnes v.width ∧ e.vn = 0 ∧ e.count = 0
  /-- DIST is 0 except in DONE, and in FAULT what it was before (70_reset_and_hazards.md R236). -/
  distOnlyDone : e.state ≠ .done → e.state ≠ .fault → e.dist = 0
  /-- ERR is NONE while a table is built or used: PBEGIN clears it (10_state.md R29). -/
  errNone : e.state ≠ .idle → e.state ≠ .fault → e.err = .none
  /-- In IDLE, ERR is NONE or a construction error (60_exceptions.md R208). -/
  errIdle : e.state = .idle → e.err = .none ∨ e.err = .patternTooLong ∨ e.err = .nonAscii
  /-- In FAULT, ERR holds a code (60_exceptions.md R207). -/
  errFault : e.state = .fault → e.err ≠ .none
  /-- The pending flags are of the construction in progress (10_state.md R32). -/
  pendingOnlyInBuild : e.state ≠ .build → e.state ≠ .fault → e.pendNa = false ∧ e.pendTl = false
  /-- PEND_TL is set only at LEN = W (10_state.md R32). -/
  pendTlFull : e.pendTl = true → e.len.toNat = v.width
  /-- PEND_NA is set only under ASCII (10_state.md R32). -/
  pendNaAscii : e.pendNa = true → e.ascii = true
  /-- FAULT_CMD is written by fault entry only (10_state.md R33). -/
  faultCmdOnlyInFault : e.state ≠ .fault → e.faultCmd = 0

/-- The invariant of the machine: that of its engine. Nothing is asked of the host. -/
def State.Inv (s : State) : Prop := s.engine.Inv

/-- The two engines agree on bits below `k` of VP, VN and every entry, and on every other element (43_recurrence.md R169, R171). -/
structure Engine.AgreesBelow {v v' : Variant} (k : Nat) (e : Engine v) (e' : Engine v') : Prop where
  peq : ∀ (c : Byte), ∀ i < k, (e.peqRead c).getLsbD i = (e'.peqRead c).getLsbD i
  vp : ∀ i < k, e.vp.getLsbD i = e'.vp.getLsbD i
  vn : ∀ i < k, e.vn.getLsbD i = e'.vn.getLsbD i
  len : e.len = e'.len
  count : e.count = e'.count
  dist : e.dist = e'.dist
  state : e.state = e'.state
  err : e.err = e'.err
  policy : e.policy = e'.policy
  ascii : e.ascii = e'.ascii
  pendNa : e.pendNa = e'.pendNa
  pendTl : e.pendTl = e'.pendTl
  faultCmd : e.faultCmd = e'.faultCmd

/-- The transition table of 30_encoding.md R87, row by row: the STATE after a command. PEND's and TSTEP's error cells are decided by the
engine's flags and COUNT (41_peq.md R125, 43_recurrence.md R165). It is written from the table, not from the meanings. -/
def Engine.tableState {v : Variant} (e : Engine v) (i : Instr) : CtlState :=
  match e.state, i with
  | .idle, .nop => .idle
  | .idle, .rst => .idle
  | .idle, .pbegin _ _ => .build
  | .idle, _ => .fault
  | .build, .nop => .build
  | .build, .rst => .idle
  | .build, .pbegin _ _ => .build
  | .build, .ppush _ => .build
  | .build, .pend => if e.pendNa = false ∧ e.pendTl = false then .ready else if e.policy then .idle else .fault
  | .build, _ => .fault
  | .ready, .nop => .ready
  | .ready, .rst => .idle
  | .ready, .pbegin _ _ => .build
  | .ready, .tbegin => .run
  | .ready, _ => .fault
  | .run, .nop => .run
  | .run, .rst => .idle
  | .run, .pbegin _ _ => .build
  | .run, .tbegin => .run
  | .run, .tstep _ => if e.count.toNat = 2 ^ 64 - 1 then .fault else .run
  | .run, .tend => .done
  | .run, _ => .fault
  | .done, .nop => .done
  | .done, .rst => .idle
  | .done, .pbegin _ _ => .build
  | .done, .tbegin => .run
  | .done, _ => .fault
  | .fault, .rst => .idle
  | .fault, _ => .fault

/-- The outcome after the host has written the words, in order, and nothing else (20_memory.md R67). -/
def State.afterWords (s : State) (ws : List Word16) : Host.Outcome State Fault Refusal :=
  Sys2Proof.core.run ws.length { s with host := writes ws }

/-- The two hexadecimal digits of a byte, upper-case as in 30_encoding.md R90's `0x00`..`0xFF`. -/
def hexDigits (b : Byte) : List Char := [Nat.digitChar (b.toNat / 16), Nat.digitChar (b.toNat % 16)].map Char.toUpper

/-- A byte that can stand in a string literal as its own character: printable ASCII (30_encoding.md R92) but the quote and the backslash, which
the model reads only as escapes (log entry 4). -/
def plainByte (b : Byte) : Bool := decide (0x20 ≤ b.toNat ∧ b.toNat ≤ 0x7E ∧ b.toNat ≠ 34 ∧ b.toNat ≠ 92)

/-- A byte as it is written in a string literal: as its own character where `plain` asks for it and the byte can be, else as `\xHH`
(30_encoding.md R92). -/
def literalPiece (plain : Bool) (b : Byte) : List Char :=
  if plain && plainByte b then [Char.ofNat b.toNat] else Char.ofNat 92 :: 'x' :: hexDigits b

/-- A string literal between its quotes, each byte with the wish whether it is written plain (30_encoding.md R92). -/
def stringLiteral (p : List (Bool × Byte)) : List Char :=
  Char.ofNat 34 :: p.flatMap (fun x => literalPiece x.1 x.2) ++ [Char.ofNat 34]

/-- A safe run: every one of `n` steps from `s` answers a next state. -/
def SafeFor (n : Nat) (s : State) : Prop := ∃ t, Sys2Proof.core.run n s = .next t

end Sys2Proof.Machine
end

