-- ==== Sys2Proof/Certificates/Slice0/Obligations.lean ====
section
/-! DEFINITION. The statements for the provers. Each docstring names the rules of spec/ it formalises. -/

open Sys2Proof Sys2Proof.Machine

/-! ## Encoding -/

/-- R82, R85: a word decodes to a command exactly when one of the three legality clauses holds; every other word is refused. -/
def Obligations.WordsDecodeExactlyWhenLegal : Prop :=
  ∀ w : Word16,
    ((∃ i, decode w = .ok i) ↔
      (((w.extractLsb' 12 4 = 0x0 ∨ w.extractLsb' 12 4 = 0x1 ∨ w.extractLsb' 12 4 = 0x4 ∨ w.extractLsb' 12 4 = 0x5 ∨
          w.extractLsb' 12 4 = 0x7) ∧ w.extractLsb' 0 12 = 0) ∨
        (w.extractLsb' 12 4 = 0x2 ∧ w.extractLsb' 10 2 = 0 ∧ w.extractLsb' 0 8 = 0) ∨
        ((w.extractLsb' 12 4 = 0x3 ∨ w.extractLsb' 12 4 = 0x6) ∧ w.extractLsb' 8 4 = 0))) ∧
    (legalWord w = true ↔ ∃ i, decode w = .ok i)

/-- R82: there are 521 legal words. -/
def Obligations.LegalWordsAre521 : Prop :=
  ∃ ws : List Word16, ws.Nodup ∧ ws.length = 521 ∧ ∀ w, w ∈ ws ↔ legalWord w = true

/-- R80 to R84: decoding an encoded command gives it back with every operand, its word is legal, and a word that decodes is the encoding of
what it decodes to. So FAULT_CMD, which a command writes as its encoding, is the very word the host wrote. -/
def Obligations.DecodeAndEncodeAreInverse : Prop :=
  (∀ i, i.wellFormed = true ∧ decode (encode i) = .ok i) ∧ ∀ w i, decode w = .ok i → encode i = w

/-- opcode_table.json: a word that decodes lies in exactly one row of the table, the one with its command's mnemonic; a word that does
not decode lies in none. -/
def Obligations.DecodeFollowsTheOpcodeTable : Prop :=
  ∀ w : Word16,
    (∀ i, decode w = .ok i → (opcodeTable.filter fun r => r.covers w).map OpcodeRow.mnemonic = [i.mnemonic]) ∧
    (∀ d, decode w = .error d → opcodeTable.filter (fun r => r.covers w) = [])

/-- R81, R83 (sanity, on words written out from the opcode map): one word of each command, and some illegal ones. -/
def Obligations.WrittenOutWordsDecode : Prop :=
  decode 0b0000000000000000 = .ok .nop ∧ decode 0b0001000000000000 = .ok .rst ∧
    decode 0b0010001100000000 = .ok (.pbegin true true) ∧ decode 0b0010000100000000 = .ok (.pbegin true false) ∧
    decode 0b0010001000000000 = .ok (.pbegin false true) ∧ decode 0b0011000001000001 = .ok (.ppush 0x41) ∧
    decode 0b0100000000000000 = .ok .pend ∧ decode 0b0101000000000000 = .ok .tbegin ∧
    decode 0b0110000011111111 = .ok (.tstep 0xFF) ∧ decode 0b0111000000000000 = .ok .tend ∧
    legalWord 0x2400 = false ∧ legalWord 0x2001 = false ∧ legalWord 0x3100 = false ∧ legalWord 0x1001 = false ∧
    legalWord 0x8000 = false

/-! ## The step -/

/-- R86: what a written word does, in the decoding order. The word is taken from the front of the host's actions; FAULT discards every
word but 0x1000; then an illegal word raises ILLEGAL_COMMAND; then a command not accepted raises SEQUENCE; otherwise the
command executes. -/
def Obligations.WrittenWordFollowsTheDecodingOrder : Prop :=
  ∀ (s : State) (w : Word16) (rest : List HostAction), s.host = .write w :: rest →
    (s.engine.state = .fault → w ≠ 0x1000 → step s = .next { s with host := rest }) ∧
    (s.engine.state ≠ .fault → legalWord w = false →
      step s = .next { s with
        host := rest, engine := { s.engine with state := .fault, err := .illegalCommand, faultCmd := w } }) ∧
    (s.engine.state ≠ .fault → ∀ i, decode w = .ok i → acceptedIn i s.engine.state = false →
      step s = .next { s with
        host := rest, engine := { s.engine with state := .fault, err := .sequence, faultCmd := w } }) ∧
    (∀ i, decode w = .ok i → acceptedIn i s.engine.state = true →
      step s = { s with host := rest }.onEngine
        (match i with
          | .nop => Except.ok
          | .rst => fun _ => .ok (Engine.reset s.variant)
          | .pbegin policy ascii => fun e => .ok (e.startBuild policy ascii)
          | .ppush b => fun e => e.pushByte b
          | .pend => fun e => .ok (e.endBuild w)
          | .tbegin => fun e => .ok e.startRun
          | .tstep b => fun e => .ok (e.consume w b)
          | .tend => fun e => e.extract))

/-- When the host's next action writes a word that decodes to the command i, the step is `exec i` on the machine with that action taken;
and `withFetchWord` places exactly such a word. -/
def Obligations.StepRunsTheDecodedCommand : Prop :=
  (∀ (s : State) (w : Word16) (rest : List HostAction) (i : Instr),
    s.host = .write w :: rest → decode w = .ok i → step s = exec i { s with host := rest }) ∧
  ∀ (s : State) (nbits w : Nat) (i : Instr), decodeTableWord nbits w = some i → step (s.withFetchWord nbits w) = exec i s

/-- R38: a read changes no state element (only the host's own record of the words read grows), two reads of one address with no command
between them return the same value, and no action but a written command or the reset input changes the engine. -/
def Obligations.ReadsHaveNoSideEffect : Prop :=
  (∀ (s : State) (a : ReadAddr) (rest : List HostAction), s.host = .read a :: rest →
    step s = .next { s with host := rest, readLog := s.engine.readPort a :: s.readLog }) ∧
  (∀ (s : State) (a : ReadAddr) (rest : List HostAction), s.host = .read a :: .read a :: rest →
    ∃ x, Sys2Proof.core.run 2 s = .next { s with host := rest, readLog := x :: x :: s.readLog }) ∧
  ∀ (s : State) (h : HostAction) (rest : List HostAction), s.host = h :: rest →
    (∀ w, h ≠ .write w) → (∀ w, h ≠ .resetDuring w) → h ≠ .reset →
    ∃ log, step s = .next { s with host := rest, readLog := log }

/-- R217: while the host waits, for any number of steps and whether it is out of actions or idles by one, the engine holds its state. -/
def Obligations.EngineHoldsStateWhileTheHostWaits : Prop :=
  (∀ (n : Nat) (s : State), s.host = [] → Sys2Proof.core.run n s = .next s) ∧
  ∀ (n : Nat) (s : State) (rest : List HostAction), s.host = List.replicate n .idle ++ rest →
    Sys2Proof.core.run n s = .next { s with host := rest }

/-- R2: no step changes the variant. -/
def Obligations.VariantNeverChanges : Prop :=
  ∀ s t : State, step s = .next t → t.variant = s.variant

/-! ## Reset -/

/-- R231: the reset value of every element, in both builds; and `State.reset` is such a state. -/
def Obligations.ResetValues : Prop :=
  (∀ v : Variant,
    (∀ c, (Engine.reset v).peqRead c = 0) ∧ (Engine.reset v).len = 0 ∧ (∀ i < v.width, (Engine.reset v).vp.getLsbD i = true) ∧
    (Engine.reset v).vn = 0 ∧ (Engine.reset v).count = 0 ∧ (Engine.reset v).dist = 0 ∧ (Engine.reset v).state = .idle ∧
    (Engine.reset v).err = .none ∧ (Engine.reset v).policy = false ∧ (Engine.reset v).ascii = false ∧
    (Engine.reset v).pendNa = false ∧ (Engine.reset v).pendTl = false ∧ (Engine.reset v).faultCmd = 0x0000) ∧
  State.reset.engine = Engine.reset State.reset.variant

/-- R230: the reset input, also when it comes while a command is executing (whose effects then do not appear), and RST all give
exactly the reset state; the build and ID_CFG are not affected; and the engine then accepts commands. -/
def Obligations.ResetEventGivesTheResetState : Prop :=
  (∀ (s : State) (h : HostAction) (rest : List HostAction), s.host = h :: rest → (h = .reset ∨ ∃ w, h = .resetDuring w) →
    step s = .next { s with host := rest, engine := Engine.reset s.variant }) ∧
  (∀ s : State, exec .rst s = .next { s with engine := Engine.reset s.variant }) ∧
  (∀ (v : Variant) (e : Engine v), e.readPort 0 = (Engine.reset v).readPort 0) ∧
  ∀ v : Variant, (Engine.reset v).state = .idle ∧ ∀ policy ascii, acceptedIn (.pbegin policy ascii) (Engine.reset v).state = true

/-! ## Control commands -/

/-- R190: NOP changes nothing in every state; its word is 0x0000 and no other word with OP = 0 is legal. -/
def Obligations.NopChangesNothing : Prop :=
  (∀ s : State, exec .nop s = .next s) ∧ encode .nop = 0x0000 ∧
    ∀ w : Word16, w.extractLsb' 12 4 = 0x0 → w ≠ 0x0000 → legalWord w = false

/-- R191: RST resets in every state; it is the only command that leaves FAULT; after it a TBEGIN raises SEQUENCE, and from IDLE no command but
PBEGIN reaches a state other than IDLE and FAULT; 0x1001 is illegal and in FAULT it is discarded. -/
def Obligations.RstResetsAndAloneLeavesFault : Prop :=
  (∀ s : State, exec .rst s = .next { s with engine := Engine.reset s.variant }) ∧ encode .rst = 0x1000 ∧
  (∀ (i : Instr) (s t : State), s.engine.state = .fault → exec i s = .next t → t.engine.state ≠ .fault → i = .rst) ∧
  (∀ s : State, exec .tbegin { s with engine := Engine.reset s.variant } = .next { s with
    engine := { Engine.reset s.variant with state := .fault, err := .sequence, faultCmd := 0x5000 } }) ∧
  (∀ (i : Instr) (s t : State), s.engine.state = .idle → exec i s = .next t → (∀ policy ascii, i ≠ .pbegin policy ascii) →
    t.engine.state = .idle ∨ t.engine.state = .fault) ∧
  legalWord 0x1001 = false ∧
  ∀ (s : State) (rest : List HostAction), s.engine.state = .fault → s.host = .write 0x1001 :: rest →
    step s = .next { s with host := rest }

/-! ## Building the table -/

/-- R123: PBEGIN in every state but FAULT: every entry ZERO, and the other elements as the pseudocode sets them; FAULT_CMD keeps its value. -/
def Obligations.PbeginStartsAConstruction : Prop :=
  (∀ (s : State) (policy ascii : Bool), s.engine.state ≠ .fault →
    ∃ e : Engine s.variant, exec (.pbegin policy ascii) s = .next { s with engine := e } ∧ (∀ c, e.peqRead c = 0) ∧
      e = { s.engine with
        peq := e.peq, len := 0, policy := policy, ascii := ascii, pendNa := false, pendTl := false, err := .none
        vp := BitVec.allOnes s.variant.width, vn := 0, count := 0, dist := 0, state := .build }) ∧
  ∀ policy ascii : Bool,
    encode (.pbegin policy ascii) = 0x2000 ||| ((BitVec.ofBool ascii).setWidth 16 <<< 9) ||| ((BitVec.ofBool policy).setWidth 16 <<< 8)

/-- R124: PPUSH in BUILD. Below W it sets bit LEN of entry b alone and counts; at LEN = W it writes no bit and sets PEND_TL; either way a byte
≥ 0x80 under ASCII sets PEND_NA. Nothing else changes. Outside BUILD it raises SEQUENCE (in FAULT it is discarded). -/
def Obligations.PpushAppendsOneByte : Prop :=
  (∀ (s : State) (b : Byte), s.engine.state = .build → s.engine.len.toNat < s.variant.width →
    ∃ e : Engine s.variant, exec (.ppush b) s = .next { s with engine := e } ∧
      (∀ (c : Byte) (i : Nat), (e.peqRead c).getLsbD i =
        ((s.engine.peqRead c).getLsbD i || (decide (c = b) && decide (i = s.engine.len.toNat)))) ∧
      e.len.toNat = s.engine.len.toNat + 1 ∧
      e = { s.engine with
        peq := e.peq, len := e.len, pendNa := s.engine.pendNa || (s.engine.ascii && decide (0x80 ≤ b.toNat)) }) ∧
  (∀ (s : State) (b : Byte), s.engine.state = .build → s.variant.width ≤ s.engine.len.toNat →
    exec (.ppush b) s = .next { s with engine := { s.engine with
      pendNa := s.engine.pendNa || (s.engine.ascii && decide (0x80 ≤ b.toNat)), pendTl := true } }) ∧
  (∀ (s : State) (b : Byte), s.engine.state ≠ .build → s.engine.state ≠ .fault →
    exec (.ppush b) s = .next { s with
      engine := { s.engine with state := .fault, err := .sequence, faultCmd := encode (.ppush b) } }) ∧
  ∀ b : Byte, encode (.ppush b) = 0x3000 ||| b.setWidth 16

/-- R125: PEND in BUILD. With no pending flag the table is frozen and only STATE changes; else the code is NON_ASCII if PEND_NA is set and
PATTERN_TOO_LONG if only PEND_TL is, raised as a fault under POLICY = 0 and as a recoverable error under POLICY = 1. Outside BUILD it
raises SEQUENCE. -/
def Obligations.PendFreezesOrReports : Prop :=
  (∀ s : State, s.engine.state = .build → s.engine.pendNa = false → s.engine.pendTl = false →
    exec .pend s = .next { s with engine := { s.engine with state := .ready } }) ∧
  (∀ (s : State) (code : ErrCode), s.engine.state = .build →
    (s.engine.pendNa = true ∧ code = .nonAscii ∨
      s.engine.pendNa = false ∧ s.engine.pendTl = true ∧ code = .patternTooLong) →
    (s.engine.policy = false →
      exec .pend s = .next { s with engine := { s.engine with state := .fault, err := code, faultCmd := 0x4000 } }) ∧
    (s.engine.policy = true →
      ∃ e : Engine s.variant, exec .pend s = .next { s with engine := e } ∧ (∀ c, e.peqRead c = 0) ∧
        e = { s.engine with peq := e.peq, len := 0, pendNa := false, pendTl := false, err := code, state := .idle })) ∧
  (∀ s : State, s.engine.state ≠ .build → s.engine.state ≠ .fault →
    exec .pend s = .next { s with engine := { s.engine with state := .fault, err := .sequence, faultCmd := 0x4000 } }) ∧
  encode .pend = 0x4000

/-- R208: the recoverable report clears the table, LEN and the pending flags, records the code and returns to IDLE; POLICY, ASCII, VP, VN,
COUNT, DIST and FAULT_CMD are unchanged; and the engine accepts PBEGIN at once. It is raised by PEND only: a command that goes to IDLE
from another state is RST or PEND. -/
def Obligations.RecoverableErrorLeavesNoTable : Prop :=
  (∀ s : State, s.engine.state = .build → s.engine.policy = true → s.engine.pendNa = true ∨ s.engine.pendTl = true →
    ∃ e : Engine s.variant, exec .pend s = .next { s with engine := e } ∧
      (∀ c, e.peqRead c = 0) ∧ e.len = 0 ∧ e.pendNa = false ∧ e.pendTl = false ∧ e.state = .idle ∧
      e.err = (if s.engine.pendNa then .nonAscii else .patternTooLong) ∧
      e.policy = s.engine.policy ∧ e.ascii = s.engine.ascii ∧ e.vp = s.engine.vp ∧ e.vn = s.engine.vn ∧
      e.count = s.engine.count ∧ e.dist = s.engine.dist ∧ e.faultCmd = s.engine.faultCmd ∧
      (∀ policy ascii, acceptedIn (.pbegin policy ascii) e.state = true)) ∧
  ∀ (i : Instr) (s t : State), exec i s = .next t → s.engine.state ≠ .idle → t.engine.state = .idle → i = .pend ∨ i = .rst

/-- R31: POLICY and ASCII are changed by PBEGIN and by reset only. -/
def Obligations.ModeBitsHoldForTheConstruction : Prop :=
  ∀ (i : Instr) (s t : State), exec i s = .next t → i ≠ .rst → (∀ policy ascii, i ≠ .pbegin policy ascii) →
    t.engine.policy = s.engine.policy ∧ t.engine.ascii = s.engine.ascii

/-- R122: while STATE is READY, RUN or DONE every command but PBEGIN and RST leaves PEQ and LEN unchanged, and PBEGIN and RST leave these
states, whatever the table holds. -/
def Obligations.FrozenTableIsImmutable : Prop :=
  ∀ (i : Instr) (s : State) (e : Engine s.variant),
    s.engine.state = .ready ∨ s.engine.state = .run ∨ s.engine.state = .done → exec i s = .next { s with engine := e } →
    (i ≠ .rst → (∀ policy ascii, i ≠ .pbegin policy ascii) → e.peq = s.engine.peq ∧ e.len = s.engine.len) ∧
    ((i = .rst ∨ ∃ policy ascii, i = .pbegin policy ascii) → e.state ≠ .ready ∧ e.state ≠ .run ∧ e.state ≠ .done)

/-! ## The run commands -/

/-- R164: TBEGIN in READY, RUN and DONE: VP all ones, VN, COUNT and DIST zero, STATE = RUN, and nothing else changes, so the table serves
every run. In IDLE and BUILD it raises SEQUENCE. -/
def Obligations.TbeginStartsARun : Prop :=
  (∀ s : State, s.engine.state = .ready ∨ s.engine.state = .run ∨ s.engine.state = .done →
    exec .tbegin s = .next { s with engine := { s.engine with
      vp := BitVec.allOnes s.variant.width, vn := 0, count := 0, dist := 0, state := .run } }) ∧
  (∀ s : State, s.engine.state = .idle ∨ s.engine.state = .build →
    exec .tbegin s = .next { s with engine := { s.engine with state := .fault, err := .sequence, faultCmd := 0x5000 } }) ∧
  encode .tbegin = 0x5000

/-- R165 with R161: TSTEP in RUN below the last count, in both variants: VP and VN take the values of the step function written over the whole
register's addition and shift, COUNT counts, nothing else changes. At COUNT = 2^64 − 1 it raises COUNT_OVERFLOW with VP, VN and COUNT
unchanged; outside RUN it raises SEQUENCE. -/
def Obligations.TstepRunsTheRecurrence : Prop :=
  (∀ (s : State) (b : Byte), s.engine.state = .run → s.engine.count.toNat < 2 ^ 64 - 1 →
    exec (.tstep b) s = .next { s with engine :=
      let eq := s.engine.peqRead b
      let sum := (eq &&& s.engine.vp) + s.engine.vp
      let d0 := (sum ^^^ s.engine.vp) ||| eq
      let hp := ((s.engine.vn ||| ~~~(s.engine.vp ||| d0)) <<< 1) ||| 1#s.variant.width
      let hn := s.engine.vp &&& d0
      let xh := eq ||| s.engine.vn
      { s.engine with
        vp := (hn <<< 1) ||| ~~~(xh ||| hp), vn := hp &&& xh, count := BitVec.ofNat 64 (s.engine.count.toNat + 1) } }) ∧
  (∀ (s : State) (b : Byte), s.engine.state = .run → s.engine.count.toNat = 2 ^ 64 - 1 →
    exec (.tstep b) s = .next { s with
      engine := { s.engine with state := .fault, err := .countOverflow, faultCmd := 0x6000 ||| b.setWidth 16 } }) ∧
  (∀ (s : State) (b : Byte), s.engine.state ≠ .run → s.engine.state ≠ .fault →
    exec (.tstep b) s = .next { s with
      engine := { s.engine with state := .fault, err := .sequence, faultCmd := 0x6000 ||| b.setWidth 16 } }) ∧
  ∀ b : Byte, encode (.tstep b) = 0x6000 ||| b.setWidth 16

/-- R205: COUNT_OVERFLOW is raised by a TSTEP in RUN at COUNT = 2^64 − 1, and by nothing else. -/
def Obligations.CountOverflowOnlyAtTheLastCount : Prop :=
  (∀ (s : State) (b : Byte), s.engine.state = .run → s.engine.count.toNat = 2 ^ 64 - 1 →
    exec (.tstep b) s = .next { s with
      engine := { s.engine with state := .fault, err := .countOverflow, faultCmd := encode (.tstep b) } }) ∧
  ∀ (i : Instr) (s t : State), exec i s = .next t → s.engine.err ≠ .countOverflow → t.engine.err = .countOverflow →
    s.engine.state = .run ∧ s.engine.count.toNat = 2 ^ 64 - 1 ∧ ∃ b, i = .tstep b

/-- R166: TEND in RUN, in both variants: DIST is COUNT plus the set bits of VP below LEN minus those of VN, mod 2^64; STATE = DONE; nothing else
changes. With no set bit below LEN in either it is COUNT, with LEN = 0 in particular. Outside RUN it raises SEQUENCE. LEN above W
never occurs (R27). -/
def Obligations.TendExtractsTheDistance : Prop :=
  (∀ s : State, s.engine.state = .run → s.engine.len.toNat ≤ s.variant.width →
    exec .tend s = .next { s with engine := { s.engine with
      dist := BitVec.ofInt 64 ((s.engine.count.toNat : Int)
        + ((List.range s.engine.len.toNat).countP fun i => s.engine.vp.getLsbD i)
        - ((List.range s.engine.len.toNat).countP fun i => s.engine.vn.getLsbD i))
      state := .done } }) ∧
  (∀ s : State, s.engine.state ≠ .run → s.engine.state ≠ .fault →
    exec .tend s = .next { s with engine := { s.engine with state := .fault, err := .sequence, faultCmd := 0x7000 } }) ∧
  encode .tend = 0x7000

/-- R166's corner: with no TSTEP since TBEGIN, DIST = LEN. -/
def Obligations.EmptyTextGivesThePatternLength : Prop :=
  ∀ s : State, s.engine.state = .ready ∨ s.engine.state = .run ∨ s.engine.state = .done →
    s.engine.len.toNat ≤ s.variant.width →
    ∃ t, s.afterWords (editDistanceWithPeq []) = .next t ∧ t.engine.state = .done ∧ t.engine.dist.toNat = s.engine.len.toNat

/-! ## The automaton and the faults -/

/-- R87: STATE after every command in every state is the transition table's, and the command completes (for LEN in its range, R27); and every
illegal word enters FAULT from any state but FAULT. -/
def Obligations.TransitionTable : Prop :=
  (∀ (i : Instr) (s : State), s.engine.len.toNat ≤ s.variant.width →
    ∃ e : Engine s.variant, exec i s = .next { s with engine := e } ∧ e.state = s.engine.tableState i) ∧
  ∀ (s : State) (w : Word16) (rest : List HostAction), s.host = .write w :: rest → legalWord w = false →
    s.engine.state ≠ .fault → ∃ t, step s = .next t ∧ t.engine.state = .fault

/-- R204: a legal command in a state that does not accept it (the SEQ cells of R87, written out here) raises SEQUENCE: ERR = 4 and FAULT_CMD
= the word, and nothing else changes. -/
def Obligations.OutOfOrderCommandRaisesSequence : Prop :=
  (∀ (i : Instr) (s : State), s.engine.state ≠ .fault →
    (match i with
      | .nop => False
      | .rst => False
      | .pbegin _ _ => False
      | .ppush _ => s.engine.state ≠ .build
      | .pend => s.engine.state ≠ .build
      | .tbegin => s.engine.state = .idle ∨ s.engine.state = .build
      | .tstep _ => s.engine.state ≠ .run
      | .tend => s.engine.state ≠ .run) →
    exec i s = .next { s with engine := { s.engine with state := .fault, err := .sequence, faultCmd := encode i } }) ∧
  ErrCode.sequence.code = 4

/-- R203: a word that is not legal raises ILLEGAL_COMMAND in every state but FAULT: ERR = 3 and FAULT_CMD = the word, and nothing else changes. -/
def Obligations.IllegalWordRaisesIllegalCommand : Prop :=
  (∀ (s : State) (w : Word16) (rest : List HostAction), s.host = .write w :: rest → legalWord w = false →
    s.engine.state ≠ .fault →
    step s = .next { s with
      host := rest, engine := { s.engine with state := .fault, err := .illegalCommand, faultCmd := w } }) ∧
  (∀ w : Word16, 0x8 ≤ (w.extractLsb' 12 4).toNat → legalWord w = false) ∧ ErrCode.illegalCommand.code = 3

/-- R207: a written word that takes the engine into FAULT changes STATE, ERR and FAULT_CMD alone, and FAULT_CMD is that word: faults are precise. -/
def Obligations.FaultEntryIsPrecise : Prop :=
  ∀ (s t : State) (w : Word16) (rest : List HostAction), s.host = .write w :: rest → s.engine.state ≠ .fault →
    step s = .next t → t.engine.state = .fault →
    t = { s with host := rest, engine := { s.engine with state := .fault, err := t.engine.err, faultCmd := w } } ∧
      t.engine.err ≠ .none

/-- R209: while STATE = FAULT every word but 0x1000 is discarded, legal or not: nothing changes but that the host's action is taken; so any
number of such words and reads leave the engine as it is. Reads work. 0x1000 resets. -/
def Obligations.FaultStateIsSticky : Prop :=
  (∀ (s : State) (acts rest : List HostAction), s.engine.state = .fault → s.host = acts ++ rest →
    (∀ a ∈ acts, (∃ w, a = .write w ∧ w ≠ 0x1000) ∨ (∃ r, a = .read r) ∨ a = .idle) →
    ∃ log, Sys2Proof.core.run acts.length s = .next { s with host := rest, readLog := log }) ∧
  (∀ (s : State) (a : ReadAddr) (rest : List HostAction), s.engine.state = .fault → s.host = .read a :: rest →
    step s = .next { s with host := rest, readLog := s.engine.readPort a :: s.readLog }) ∧
  ∀ (s : State) (rest : List HostAction), s.engine.state = .fault → s.host = .write 0x1000 :: rest →
    step s = .next { s with host := rest, engine := Engine.reset s.variant }

/-- R239, R109: from a state that meets the invariant no run of any length under any host stops: no command reaches an undefined case. -/
def Obligations.NoRunReachesAnUndefinedCase : Prop :=
  ∀ (n : Nat) (s : State), s.Inv → SafeFor n s

/-- The converse corner of R109 (log entry 5): in a state with LEN > W, which no run reaches, TEND stops with the model's fault. -/
def Obligations.TendStopsOnlyOutsideTheLengthRange : Prop :=
  ∀ s : State, s.engine.state = .run →
    (exec .tend s = .fault .preconditionViolated ↔ s.variant.width < s.engine.len.toNat)

/-! ## Invariants -/

/-- The invariant of the reachable states is kept by every step, whatever the host does. -/
def Obligations.EveryStepKeepsTheInvariant : Prop :=
  ∀ s t : State, s.Inv → step s = .next t → t.Inv

/-- The invariant holds after reset, in both builds. -/
def Obligations.ResetMeetsTheInvariant : Prop :=
  (∀ v : Variant, (State.resetOf v).Inv) ∧ State.reset.Inv

/-! ## The word operations -/

/-- R101, R109: bit_at(i) has exactly bit i set; outside its range it is the model-level fault. -/
def Obligations.BitAtSetsExactlyOneBit : Prop :=
  ∀ (v : Variant) (i : Nat),
    (i < v.width → ∃ x, bitAt v i = .ok x ∧ ∀ j, x.getLsbD j = decide (j = i)) ∧
    (v.width ≤ i → bitAt v i = .error .preconditionViolated)

/-- R108: in both variants ADD_W is addition mod 2^W, SHL1_W doubling mod 2^W, UPTO_W(i) = 2^i − 1 for i ≤ W (the fault of R109 above), and
POPCOUNT_W the number of set bits. -/
def Obligations.VariantBindingComputesTheSameFunctions : Prop :=
  ∀ v : Variant,
    (∀ a b : BitVec v.width, (addW v a b).toNat = (a.toNat + b.toNat) % 2 ^ v.width) ∧
    (∀ a : BitVec v.width, (shl1W v a).toNat = a.toNat * 2 % 2 ^ v.width) ∧
    (∀ i ≤ v.width, ∃ m, uptoW v i = .ok m ∧ m.toNat = 2 ^ i - 1) ∧
    (∀ i, v.width < i → uptoW v i = .error .preconditionViolated) ∧
    (∀ a : BitVec v.width, popcountW v a = (List.range v.width).countP fun i => a.getLsbD i)

/-- R140 to R143: for every CARRY_HINT the lane procedure ends, within 7 tested rounds, with no carry pending, and its lanes are those of the
big-integer sum mod 2^512. -/
def Obligations.CarryRoundsAddAsOneBigInteger : Prop :=
  ∀ (hint : Nat) (a b : BitVec 512),
    carryPending (carryAdd hint a b) = false ∧ (carryAdd hint a b).sums = lanesOf (add512 a b) ∧
      ofLanes (carryAdd hint a b).sums = add512 a b ∧ (add512 a b).toNat = (a.toNat + b.toNat) % 2 ^ 512

/-- R143: with no hint the loop makes at most 7 rounds on every input, whatever the fuel it is given, and 2^448 − 1 plus 1 takes 7; for every
hint, that of the build among them, the result is R140's. -/
def Obligations.CarryRoundBoundIsSevenAndReached : Prop :=
  (∀ (fuel : Nat) (a b : BitVec 512), (carryLoop fuel (carryStart a b)).rounds ≤ 7) ∧
  (∀ a b : BitVec 512, carryPending (carryLoop 7 (carryStart a b)) = false) ∧
  (carryAdd 0 (BitVec.ofNat 512 (2 ^ 448 - 1)) 1).rounds = 7 ∧
  (∀ (hint : Nat) (a b : BitVec 512), ofLanes (carryAdd hint a b).sums = a + b) ∧ ∀ a b : BitVec 512, add512Built a b = a + b

/-- R144: the cross-lane shift of 0 to 64 is the shift of the whole register; above 64 it is the fault of R109. -/
def Obligations.CrossLaneShiftIsTheWholeShift : Prop :=
  (∀ (a : BitVec 512), ∀ n ≤ 64, shl512 a n = .ok (a <<< n)) ∧
  (∀ (a : BitVec 512) (n : Nat), 64 < n → shl512 a n = .error .preconditionViolated) ∧
  ∀ a : BitVec 512, shl512 a 1 = .ok (shl512One a)

/-- R145, R109: UPTO512(i) has exactly the bits below i set, for i ≤ 512; above it is the fault. -/
def Obligations.UptoMaskHasExactlyTheLowBits : Prop :=
  (∀ i ≤ 512, ∃ m, upto512 i = .ok m ∧ m.toNat = 2 ^ i - 1 ∧ (∀ j < 512, m.getLsbD j = decide (j < i)) ∧
    ∀ j < 8, lane m j = if 64 * (j + 1) ≤ i then BitVec.allOnes 64
      else if 64 * j ≤ i then BitVec.ofNat 64 (2 ^ (i - 64 * j) - 1) else 0) ∧
  ∀ i, 512 < i → upto512 i = .error .preconditionViolated

/-- R146: the wide popcount reduce counts the set bits of the whole register, 0 to 512. -/
def Obligations.PopcountReduceCountsTheWholeRegister : Prop :=
  (∀ a : BitVec 512, popcount512 a = (List.range 512).countP (fun i => a.getLsbD i) ∧ popcount512 a ≤ 512) ∧
    popcount512 0 = 0 ∧ popcount512 (BitVec.allOnes 512) = 512 ∧ popcount512 (1 ||| (1 <<< 511)) = 2

/-- R170: for every k < W, bits [k:0] of VP' and VN' depend only on bits [k:0] of eq, VP and VN; across the two variants too, for k below both
widths. -/
def Obligations.InformationFlowsOnlyUpward : Prop :=
  ∀ (v v' : Variant) (k : Nat) (eq vp vn : BitVec v.width) (eq' vp' vn' : BitVec v'.width),
    k < v.width → k < v'.width →
    (∀ i ≤ k, eq.getLsbD i = eq'.getLsbD i ∧ vp.getLsbD i = vp'.getLsbD i ∧ vn.getLsbD i = vn'.getLsbD i) →
    ∀ i ≤ k, (recurrence v eq vp vn).vp.getLsbD i = (recurrence v' eq' vp' vn').vp.getLsbD i ∧
      (recurrence v eq vp vn).vn.getLsbD i = (recurrence v' eq' vp' vn').vn.getLsbD i

/-! ## The read port -/

/-- The field list of R36 with the encodings of R28 and R200: every field of STATUS and the bits that read 0. Who writes a field is no part of it. -/
def Obligations.StatusFields : Prop :=
  (∀ (v : Variant) (e : Engine v),
    e.readPort 0x001 = e.status ∧
    e.status.extractLsb' 0 3 = e.state.code ∧ e.status.getLsbD 3 = false ∧ e.status.extractLsb' 4 4 = e.err.code ∧
    e.status.getLsbD 8 = e.pendNa ∧ e.status.getLsbD 9 = e.pendTl ∧ e.status.getLsbD 10 = e.policy ∧
    e.status.getLsbD 11 = e.ascii ∧ e.status.extractLsb' 12 52 = 0) ∧
  [CtlState.idle, .build, .ready, .run, .done, .fault].map CtlState.code = [0, 1, 2, 3, 4, 7] ∧
  [ErrCode.none, .patternTooLong, .nonAscii, .illegalCommand, .sequence, .countOverflow].map ErrCode.code = [0, 1, 2, 3, 4, 5]

/-- R34: ID_CFG is a constant of the build, read at address 0: 0x0000_0000_0001_0040 for SCALAR and 0x0000_0000_0108_0200 for WIDE, with W in
bits [15:0], LANES in [23:16] and VARIANT in bit 24. -/
def Obligations.IdCfgDescribesTheBuild : Prop :=
  (∀ (v : Variant) (e : Engine v), e.readPort 0x000 = idCfg v) ∧
  idCfg .scalar = 0x0000000000010040 ∧ idCfg .wide = 0x0000000001080200 ∧
  ∀ v : Variant, ((idCfg v).extractLsb' 0 16).toNat = v.width ∧ ((idCfg v).extractLsb' 16 8).toNat = v.lanes ∧
    (idCfg v).getLsbD 24 = decide (v = .wide) ∧ (idCfg v).extractLsb' 25 39 = 0

/-- R35, R37: the whole read map. The lane windows return bits [64j+63:64j] for j < LANES and 0 above, the PEQ windows cover 0x400 to
0xBFF, every reserved address reads 0. -/
def Obligations.ReadMap : Prop :=
  ∀ (v : Variant) (e : Engine v),
    e.readPort 0x000 = idCfg v ∧ e.readPort 0x001 = e.status ∧
    (e.readPort 0x002).toNat = e.len.toNat ∧ e.readPort 0x003 = e.count ∧ e.readPort 0x004 = e.dist ∧
    (e.readPort 0x005).toNat = e.faultCmd.toNat ∧
    (∀ j < 8, e.readPort (BitVec.ofNat 12 (0x010 + j)) = if j < v.lanes then e.vp.extractLsb' (64 * j) 64 else 0) ∧
    (∀ j < 8, e.readPort (BitVec.ofNat 12 (0x018 + j)) = if j < v.lanes then e.vn.extractLsb' (64 * j) 64 else 0) ∧
    (∀ (c : Byte), ∀ j < 8, e.readPort (BitVec.ofNat 12 (0x400 + 8 * c.toNat + j)) =
      if j < v.lanes then (e.peqRead c).extractLsb' (64 * j) 64 else 0) ∧
    ∀ a : ReadAddr, (0x006 ≤ a.toNat ∧ a.toNat ≤ 0x00F) ∨ (0x020 ≤ a.toNat ∧ a.toNat ≤ 0x3FF) ∨ 0xC00 ≤ a.toNat →
      e.readPort a = 0

/-! ## Whole constructions and runs -/

/-- R120, R127, R128: from every state but FAULT, PBEGIN, the pattern and PEND with at most W bytes (and under ASCII none ≥ 0x80) reach READY with the
table of the pattern: LEN is its length and bit i of entry c is set exactly when P[i] = c. -/
def Obligations.ConstructionBuildsThePatternTable : Prop :=
  ∀ (s : State) (policy ascii : Bool) (p : List Byte), s.engine.state ≠ .fault → p.length ≤ s.variant.width →
    (ascii = true → ∀ b ∈ p, b.toNat < 0x80) →
    ∃ e : Engine s.variant, s.afterWords (construction policy ascii p) = .next { s with engine := e, host := [] } ∧
      e.state = .ready ∧ e.err = .none ∧ e.HoldsPattern p

/-- R127, R201, R202, R206, R211: a construction with a non-ASCII byte under ASCII ends at PEND with NON_ASCII, whatever its length and the
byte's place; one of more than W bytes without such a byte ends with PATTERN_TOO_LONG; under POLICY = 0 in FAULT with FAULT_CMD =
0x4000, under POLICY = 1 in IDLE with LEN = 0 and every entry ZERO. -/
def Obligations.FailedConstructionReportsItsError : Prop :=
  ∀ (s : State) (policy ascii : Bool) (p : List Byte) (code : ErrCode), s.engine.state ≠ .fault →
    ((ascii = true ∧ ∃ b ∈ p, 0x80 ≤ b.toNat) ∧ code = .nonAscii ∨
      (ascii = true → ∀ b ∈ p, b.toNat < 0x80) ∧ s.variant.width < p.length ∧ code = .patternTooLong) →
    ∃ e : Engine s.variant, s.afterWords (construction policy ascii p) = .next { s with engine := e, host := [] } ∧
      e.err = code ∧
      (policy = false → e.state = .fault ∧ e.faultCmd = 0x4000) ∧
      (policy = true → e.state = .idle ∧ e.len = 0 ∧ ∀ c, e.peqRead c = 0)

/-- R160, R172 (the meaning of the bits is the spec's general knowledge): TBEGIN on a table of P gives column 0 of the matrix. -/
def Obligations.TbeginGivesColumnZero : Prop :=
  ∀ (s : State) (p : List Byte), s.engine.state = .ready ∨ s.engine.state = .run ∨ s.engine.state = .done →
    s.engine.HoldsPattern p →
    ∃ e : Engine s.variant, exec .tbegin s = .next { s with engine := e } ∧ e.HasConsumed p []

/-- R172 (general knowledge in the spec): TSTEP moves from one column of the edit-distance matrix to the next: below LEN the bits of VP and VN are
again the vertical differences. -/
def Obligations.TstepAdvancesOneColumn : Prop :=
  ∀ (s : State) (p t : List Byte) (b : Byte), s.engine.HasConsumed p t → t.length < 2 ^ 64 - 1 →
    ∃ e : Engine s.variant, exec (.tstep b) s = .next { s with engine := e } ∧ e.HasConsumed p (t ++ [b])

/-- R167, R10 (the definition of lev is the spec's general knowledge, log entry 8, PRESUMED): TEND of a run that has consumed T against the table
of P writes lev(P, T). -/
def Obligations.TendWritesTheLevenshteinDistance : Prop :=
  ∀ (s : State) (p t : List Byte), s.engine.HasConsumed p t →
    ∃ e : Engine s.variant, exec .tend s = .next { s with engine := e } ∧ e.state = .done ∧ e.dist.toNat = lev p t

/-- R167, R10, R93 (EDIT_DISTANCE_WITH_PEQ; the definition of lev is the spec's general knowledge, log entry 8, PRESUMED): on a built table of P, in READY, RUN or DONE, the command sequence of any text of fewer than 2^64 bytes ends in
DONE with DIST = lev(P, T) and the table still holding P, ready for the next text. -/
def Obligations.RunOnABuiltTableComputesLevenshtein : Prop :=
  ∀ (s : State) (p t : List Byte), s.engine.state = .ready ∨ s.engine.state = .run ∨ s.engine.state = .done →
    s.engine.HoldsPattern p → t.length < 2 ^ 64 →
    ∃ e : Engine s.variant, s.afterWords (editDistanceWithPeq t) = .next { s with engine := e, host := [] } ∧
      e.state = .done ∧ e.dist.toNat = lev p t ∧ e.count.toNat = t.length ∧ e.HoldsPattern p

/-- R167, R10, R93 (EDIT_DISTANCE; the definition of lev is the spec's general knowledge, log entry 8, PRESUMED): from every state but FAULT and in both variants, the command sequence of a pattern of at most W bytes and a text of
fewer than 2^64 bytes ends in DONE with DIST = lev(P, T). -/
def Obligations.EditDistanceSequenceComputesLevenshtein : Prop :=
  ∀ (s : State) (p t : List Byte), s.engine.state ≠ .fault → p.length ≤ s.variant.width → t.length < 2 ^ 64 →
    ∃ e : Engine s.variant, s.afterWords (editDistance p t) = .next { s with engine := e, host := [] } ∧
      e.state = .done ∧ e.dist.toNat = lev p t

/-- R168: the DIST of a run lies between the difference of the two lengths and the longer of them, and the mod 2^64 of R166 is exact. -/
def Obligations.DistanceRange : Prop :=
  ∀ (s : State) (p t : List Byte), s.engine.state ≠ .fault → p.length ≤ s.variant.width → t.length < 2 ^ 64 →
    ∃ e : Engine s.variant, s.afterWords (editDistance p t) = .next { s with engine := e, host := [] } ∧
      e.dist.toNat ≤ max p.length t.length ∧ p.length ≤ t.length + e.dist.toNat ∧ t.length ≤ p.length + e.dist.toNat ∧
      (e.dist.toNat : Int) = (t.length : Int) + ((List.range p.length).countP fun i => e.vp.getLsbD i)
        - ((List.range p.length).countP fun i => e.vn.getLsbD i)

/-- R173 (Identity, and the agreement of both call orders): equal strings give 0, and the two orders of a pair within the width give the same
distance. -/
def Obligations.IdentityAndBothCallOrdersAgree : Prop :=
  ∀ (s s' : State) (p t : List Byte), s.engine.state ≠ .fault → s'.engine.state ≠ .fault →
    p.length ≤ s.variant.width → t.length ≤ s'.variant.width →
    (∃ e : Engine s.variant, s.afterWords (editDistance p p) = .next { s with engine := e, host := [] } ∧ e.dist = 0) ∧
    ∃ (e : Engine s.variant) (e' : Engine s'.variant),
      s.afterWords (editDistance p t) = .next { s with engine := e, host := [] } ∧
      s'.afterWords (editDistance t p) = .next { s' with engine := e', host := [] } ∧ e.dist = e'.dist

/-- R171: two engines of one build or of two that agree below LEN and differ in the padding bits of VP, VN or the table stay in agreement under
TSTEP and give the same DIST at TEND. -/
def Obligations.PaddingBitsNeverAffectTheDistance : Prop :=
  ∀ (s s' : State), Engine.AgreesBelow s.engine.len.toNat s.engine s'.engine → s.engine.state = .run →
    s.engine.len.toNat ≤ s.variant.width → s.engine.len.toNat ≤ s'.variant.width →
    (∃ (e : Engine s.variant) (e' : Engine s'.variant),
      exec .tend s = .next { s with engine := e } ∧ exec .tend s' = .next { s' with engine := e' } ∧
        e.state = .done ∧ e.dist = e'.dist) ∧
    ∀ b : Byte, ∃ (e : Engine s.variant) (e' : Engine s'.variant),
      exec (.tstep b) s = .next { s with engine := e } ∧ exec (.tstep b) s' = .next { s' with engine := e' } ∧
        Engine.AgreesBelow s.engine.len.toNat e e'

/-- R169, step by step: a SCALAR and a WIDE engine that agree on the low 64 bits, with LEN ≤ 64, agree again after every command but a PPUSH of a
65th byte in BUILD. -/
def Obligations.BackendsAgreeOnEveryCommand : Prop :=
  ∀ (s s' : State) (i : Instr), s.variant = .scalar → s'.variant = .wide → Engine.AgreesBelow 64 s.engine s'.engine →
    s.engine.len.toNat ≤ 64 → ((∃ b, i = .ppush b) → s.engine.state = .build → s.engine.len.toNat < 64) →
    ∃ (e : Engine s.variant) (e' : Engine s'.variant),
      exec i s = .next { s with engine := e } ∧ exec i s' = .next { s' with engine := e' } ∧ Engine.AgreesBelow 64 e e'

/-- R169: for every pattern of at most 64 bytes the two backends return identical distances, and lane 0 of the WIDE VP and VN is the SCALAR VP and
VN (for every text, so after every step). -/
def Obligations.BackendsReturnIdenticalDistances : Prop :=
  ∀ (s s' : State) (p t : List Byte), s.variant = .scalar → s'.variant = .wide →
    s.engine.state ≠ .fault → s'.engine.state ≠ .fault → p.length ≤ 64 → t.length < 2 ^ 64 →
    ∃ (e : Engine s.variant) (e' : Engine s'.variant),
      s.afterWords (editDistance p t) = .next { s with engine := e, host := [] } ∧
      s'.afterWords (editDistance p t) = .next { s' with engine := e', host := [] } ∧
      e.state = .done ∧ e'.state = .done ∧ e.dist = e'.dist ∧ lane e'.vp 0 = lane e.vp 0 ∧ lane e'.vn 0 = lane e.vn 0

/-- R93 (TRY_EDIT_DISTANCE), R127, and for DIST = lev R167 and R10 (the definition of lev is the spec's general knowledge, log entry 8, PRESUMED):
the recoverable construction, the host's look at STATE, and then the run only if READY: DONE with lev(P, T) for a
pattern of at most W bytes, and IDLE with ERR = PATTERN_TOO_LONG, never FAULT, for a longer one. -/
def Obligations.TryEditDistanceNeverFaults : Prop :=
  ∀ (s : State) (p t : List Byte), s.engine.state ≠ .fault → t.length < 2 ^ 64 →
    ∃ (e e' : Engine s.variant), s.afterWords (tryConstruction p) = .next { s with engine := e, host := [] } ∧
      State.afterWords { s with engine := e } (tryRun t e.state) = .next { s with engine := e', host := [] } ∧
      (p.length ≤ s.variant.width → e'.state = .done ∧ e'.dist.toNat = lev p t) ∧
      (s.variant.width < p.length → e'.state = .idle ∧ e'.err = .patternTooLong)

/-! ## The assembler -/

/-- R89, R90: PPUSH and TSTEP, their mnemonics in letters of any case, each assemble to their one word from the byte written in decimal, in the
two-digit upper-case hexadecimal of R90, and, where it is printable ASCII, as a character between quotes. The blank between mnemonic and
operand is a single space, one of the forms of log entry 4; the range of printable ASCII is log entry 12. -/
def Obligations.AssemblerReadsEveryByte : Prop :=
  ∀ (mnemonic : List Char) (word : Word16),
    (mnemonic.map Char.toUpper = "PPUSH".toList ∧ word = 0x3000 ∨ mnemonic.map Char.toUpper = "TSTEP".toList ∧ word = 0x6000) →
    ∀ b : Byte,
      assembleLine (mnemonic ++ ' ' :: Nat.toDigits 10 b.toNat) = .ok [word ||| b.setWidth 16] ∧
      assembleLine (mnemonic ++ ' ' :: '0' :: 'x' :: hexDigits b) = .ok [word ||| b.setWidth 16] ∧
      (0x20 ≤ b.toNat → b.toNat ≤ 0x7E →
        assembleLine (mnemonic ++ [' ', Char.ofNat 39, Char.ofNat b.toNat, Char.ofNat 39]) = .ok [word ||| b.setWidth 16])

/-- R92: PSTR and TSTR of a string literal expand to one PPUSH or TSTEP per byte, in order, and the empty literal to no command. Each byte may
stand in the literal as its own printable ASCII character or as \xHH with upper-case digits, in any mixture; the quote and the backslash
stand as \xHH only, though R92 does not say so (the model's choice, log entry 4, as is the case of the digits; the range of printable ASCII is
log entry 12). The last clause is R92's example. -/
def Obligations.StringLiteralsExpandByteByByte : Prop :=
  (∀ p : List (Bool × Byte),
    assembleLine ("PSTR ".toList ++ stringLiteral p) = .ok (p.map fun x => 0x3000 ||| x.2.setWidth 16) ∧
    assembleLine ("TSTR ".toList ++ stringLiteral p) = .ok (p.map fun x => 0x6000 ||| x.2.setWidth 16)) ∧
  assembleLine "PSTR \"AC\"".toList = .ok [0x3041, 0x3043]
end

