-- ==== Sys2Proof/Laws/Assembler.lean ====
section
/-! SUPPORT. What the assembler reads from a line: the comment, the blanks at the ends, and the mnemonic with its operand. -/

namespace Sys2Proof.Machine

/-- A blank, a quote of either kind, or a semicolon: the characters that can end a mnemonic or open something in a line. -/
def isSpecial (c : Char) : Bool := isBlank c || c.toNat == 34 || c.toNat == 39 || c.toNat == 59

/-- The empty text has no comment. -/
@[simp] theorem stripComment_nil (q : Bool) : stripComment q [] = [] := by cases q <;> rfl

/-- Inside a string literal a character is kept; the quote closes the literal. -/
@[simp] theorem stripComment_true_cons (c : Char) (t : List Char) :
    stripComment true (c :: t) = c :: stripComment (c.toNat != 34) t := rfl

/-- Outside a string literal a character that opens nothing is kept. -/
theorem stripComment_false_cons {c : Char} (h : isSpecial c = false) (t : List Char) :
    stripComment false (c :: t) = c :: stripComment false t := by
  simp only [isSpecial, Bool.or_eq_false_iff, beq_eq_false_iff_ne] at h
  have h34 : (c.toNat == 34) = false := by simp [h.1.1.2]
  match t with
  | [] => simp [stripComment, h.2]
  | [b] => simp [stripComment, h.2, h34]
  | b :: d :: t => simp [stripComment, h.1.2, h.2, h34]

/-- A text whose characters open nothing is kept before any rest. -/
theorem stripComment_false_append {m : List Char} (h : ∀ c ∈ m, isSpecial c = false) (t : List Char) :
    stripComment false (m ++ t) = m ++ stripComment false t := by
  induction m with
  | nil => rfl
  | cons c m ih =>
    rw [List.cons_append, stripComment_false_cons (h c (by simp)), ih fun d hd => h d (by simp [hd]), List.cons_append]

/-- Inside a string literal a text without the quote is kept before any rest. -/
theorem stripComment_true_append {m : List Char} (h : ∀ c ∈ m, c.toNat ≠ 34) (t : List Char) :
    stripComment true (m ++ t) = m ++ stripComment true t := by
  induction m with
  | nil => rfl
  | cons c m ih =>
    have hc : (c.toNat != 34) = true := by simpa using h c (by simp)
    rw [List.cons_append, stripComment_true_cons, hc, ih fun d hd => h d (by simp [hd]), List.cons_append]

/-- A string literal whose body holds no quote is kept whole. -/
theorem stripComment_literal {q : Char} (hq : q.toNat = 34) {m : List Char} (h : ∀ c ∈ m, c.toNat ≠ 34) :
    stripComment false (q :: m ++ [q]) = q :: m ++ [q] := by
  have h1 : stripComment false (q :: (m ++ [q])) = q :: stripComment true (m ++ [q]) := by
    match m with
    | [] => simp [stripComment, hq]
    | [b] => simp [stripComment, hq]
    | b :: d :: m => simp [stripComment, hq]
  rw [List.cons_append, h1, stripComment_true_append h]
  simp [hq]

/-- The blank is dropped before an operand whose ends are no blanks. -/
theorem trimBlanks_space (t : List Char) : trimBlanks (' ' :: t) = trimBlanks t := rfl

/-- A text whose ends are no blanks is kept whole. -/
theorem trimBlanks_of_ends {t : List Char} (hh : ∀ c ∈ t.head?, isBlank c = false) (hl : ∀ c ∈ t.getLast?, isBlank c = false) :
    trimBlanks t = t := by
  have drop : ∀ u : List Char, (∀ c ∈ u.head?, isBlank c = false) → u.dropWhile isBlank = u := by
    intro u hu
    cases u with
    | nil => rfl
    | cons c u => rw [List.dropWhile_cons_of_neg]; simp [hu c (by simp)]
  unfold trimBlanks
  rw [drop t hh, drop _ (by simpa [List.head?_reverse] using hl), List.reverse_reverse]

/-- A line of a mnemonic, one space and an operand that the comment rule keeps and whose ends are no blanks assembles as that command. -/
theorem assembleLine_operand {m operand : List Char} (hm : ∀ c ∈ m, isSpecial c = false) (hne : m ≠ [])
    (hc : stripComment false operand = operand) (ho : operand ≠ []) (hh : ∀ c ∈ operand.head?, isBlank c = false)
    (hl : ∀ c ∈ operand.getLast?, isBlank c = false) :
    assembleLine (m ++ ' ' :: operand) = assembleCommand (m.map Char.toUpper) operand := by
  have hb : ∀ c ∈ m, isBlank c = false := fun c h => by
    have := hm c h; simp only [isSpecial, Bool.or_eq_false_iff] at this; exact this.1.1.1
  have hs : stripComment false (m ++ ' ' :: operand) = m ++ ' ' :: operand := by
    rw [stripComment_false_append hm]
    congr 1
    obtain ⟨a, t, rfl⟩ := List.exists_cons_of_ne_nil ho
    cases t with
    | nil => simpa [stripComment] using hc
    | cons b t => simpa [stripComment] using hc
  have ht : trimBlanks (m ++ ' ' :: operand) = m ++ ' ' :: operand := by
    apply trimBlanks_of_ends
    · intro c h; cases m with
      | nil => exact absurd rfl hne
      | cons d m => simp at h; subst h; exact hb _ (by simp)
    · intro c h; apply hl; simpa [List.getLast?_append, List.getLast?_cons, ho, List.getLast?_eq_some_getLast ho] using h
  have htake : (m ++ ' ' :: operand).takeWhile (fun c => !isBlank c) = m := by
    rw [List.takeWhile_append_of_pos (by simpa using hb), List.takeWhile_cons_of_neg (by decide), List.append_nil]
  have hdrop : (m ++ ' ' :: operand).dropWhile (fun c => !isBlank c) = ' ' :: operand := by
    rw [List.dropWhile_append_of_pos (by simpa using hb), List.dropWhile_cons_of_neg (by decide)]
  simp only [assembleLine, hs, ht, htake, hdrop, trimBlanks_space, trimBlanks_of_ends hh hl]

/-- A text whose capitals are special nowhere is special nowhere. -/
theorem not_special_of_toUpper {m u : List Char} (h : m.map Char.toUpper = u) (hu : u.all (fun c => !isSpecial c) = true) :
    ∀ c ∈ m, isSpecial c = false := by
  have key : ∀ c : Char, isSpecial c = true → c.toUpper = c := by
    intro c hc
    have hv : c.toNat = 32 ∨ c.toNat = 9 ∨ c.toNat = 34 ∨ c.toNat = 39 ∨ c.toNat = 59 := by
      simp [isSpecial, isBlank] at hc; omega
    have hof : c = Char.ofNat c.toNat := (Char.ofNat_toNat c).symm
    rcases hv with h | h | h | h | h <;> rw [h] at hof <;> subst hof <;> decide
  intro c hc
  by_contra hs
  have hs : isSpecial c = true := by simpa using hs
  have := List.all_eq_true.1 hu c.toUpper (h ▸ List.mem_map_of_mem hc)
  rw [key c hs, hs] at this
  exact absurd this (by simp)

end Sys2Proof.Machine
end

