-- ==== Sys2Proof/Laws/State.lean ====
section
/-! SUPPORT. One lemma per field per update of the state, each true by definition. -/

namespace Sys2Proof.Machine

section EngineFields

variable {v : Variant} (e : Engine v)

/-! `Engine.peqWrite` -/

@[simp] theorem Engine.peqWrite_peq (c : Byte) (x : BitVec v.width) : (e.peqWrite c x).peq = e.peq.set c.toNat x c.isLt := rfl
@[simp] theorem Engine.peqWrite_len (c : Byte) (x : BitVec v.width) : (e.peqWrite c x).len = e.len := rfl
@[simp] theorem Engine.peqWrite_vp (c : Byte) (x : BitVec v.width) : (e.peqWrite c x).vp = e.vp := rfl
@[simp] theorem Engine.peqWrite_vn (c : Byte) (x : BitVec v.width) : (e.peqWrite c x).vn = e.vn := rfl
@[simp] theorem Engine.peqWrite_count (c : Byte) (x : BitVec v.width) : (e.peqWrite c x).count = e.count := rfl
@[simp] theorem Engine.peqWrite_dist (c : Byte) (x : BitVec v.width) : (e.peqWrite c x).dist = e.dist := rfl
@[simp] theorem Engine.peqWrite_state (c : Byte) (x : BitVec v.width) : (e.peqWrite c x).state = e.state := rfl
@[simp] theorem Engine.peqWrite_err (c : Byte) (x : BitVec v.width) : (e.peqWrite c x).err = e.err := rfl
@[simp] theorem Engine.peqWrite_policy (c : Byte) (x : BitVec v.width) : (e.peqWrite c x).policy = e.policy := rfl
@[simp] theorem Engine.peqWrite_ascii (c : Byte) (x : BitVec v.width) : (e.peqWrite c x).ascii = e.ascii := rfl
@[simp] theorem Engine.peqWrite_pendNa (c : Byte) (x : BitVec v.width) : (e.peqWrite c x).pendNa = e.pendNa := rfl
@[simp] theorem Engine.peqWrite_pendTl (c : Byte) (x : BitVec v.width) : (e.peqWrite c x).pendTl = e.pendTl := rfl
@[simp] theorem Engine.peqWrite_faultCmd (c : Byte) (x : BitVec v.width) : (e.peqWrite c x).faultCmd = e.faultCmd := rfl

/-! `Engine.peqClear` -/

@[simp] theorem Engine.peqClear_peq : (e.peqClear).peq = Vector.replicate 256 0 := rfl
@[simp] theorem Engine.peqClear_len : (e.peqClear).len = e.len := rfl
@[simp] theorem Engine.peqClear_vp : (e.peqClear).vp = e.vp := rfl
@[simp] theorem Engine.peqClear_vn : (e.peqClear).vn = e.vn := rfl
@[simp] theorem Engine.peqClear_count : (e.peqClear).count = e.count := rfl
@[simp] theorem Engine.peqClear_dist : (e.peqClear).dist = e.dist := rfl
@[simp] theorem Engine.peqClear_state : (e.peqClear).state = e.state := rfl
@[simp] theorem Engine.peqClear_err : (e.peqClear).err = e.err := rfl
@[simp] theorem Engine.peqClear_policy : (e.peqClear).policy = e.policy := rfl
@[simp] theorem Engine.peqClear_ascii : (e.peqClear).ascii = e.ascii := rfl
@[simp] theorem Engine.peqClear_pendNa : (e.peqClear).pendNa = e.pendNa := rfl
@[simp] theorem Engine.peqClear_pendTl : (e.peqClear).pendTl = e.pendTl := rfl
@[simp] theorem Engine.peqClear_faultCmd : (e.peqClear).faultCmd = e.faultCmd := rfl

/-! `Engine.raiseFault` -/

@[simp] theorem Engine.raiseFault_peq (code : ErrCode) (w : Word16) : (e.raiseFault code w).peq = e.peq := rfl
@[simp] theorem Engine.raiseFault_len (code : ErrCode) (w : Word16) : (e.raiseFault code w).len = e.len := rfl
@[simp] theorem Engine.raiseFault_vp (code : ErrCode) (w : Word16) : (e.raiseFault code w).vp = e.vp := rfl
@[simp] theorem Engine.raiseFault_vn (code : ErrCode) (w : Word16) : (e.raiseFault code w).vn = e.vn := rfl
@[simp] theorem Engine.raiseFault_count (code : ErrCode) (w : Word16) : (e.raiseFault code w).count = e.count := rfl
@[simp] theorem Engine.raiseFault_dist (code : ErrCode) (w : Word16) : (e.raiseFault code w).dist = e.dist := rfl
@[simp] theorem Engine.raiseFault_state (code : ErrCode) (w : Word16) : (e.raiseFault code w).state = .fault := rfl
@[simp] theorem Engine.raiseFault_err (code : ErrCode) (w : Word16) : (e.raiseFault code w).err = code := rfl
@[simp] theorem Engine.raiseFault_policy (code : ErrCode) (w : Word16) : (e.raiseFault code w).policy = e.policy := rfl
@[simp] theorem Engine.raiseFault_ascii (code : ErrCode) (w : Word16) : (e.raiseFault code w).ascii = e.ascii := rfl
@[simp] theorem Engine.raiseFault_pendNa (code : ErrCode) (w : Word16) : (e.raiseFault code w).pendNa = e.pendNa := rfl
@[simp] theorem Engine.raiseFault_pendTl (code : ErrCode) (w : Word16) : (e.raiseFault code w).pendTl = e.pendTl := rfl
@[simp] theorem Engine.raiseFault_faultCmd (code : ErrCode) (w : Word16) : (e.raiseFault code w).faultCmd = w := rfl

/-! `Engine.raiseError` -/

@[simp] theorem Engine.raiseError_peq (code : ErrCode) : (e.raiseError code).peq = Vector.replicate 256 0 := rfl
@[simp] theorem Engine.raiseError_len (code : ErrCode) : (e.raiseError code).len = 0 := rfl
@[simp] theorem Engine.raiseError_vp (code : ErrCode) : (e.raiseError code).vp = e.vp := rfl
@[simp] theorem Engine.raiseError_vn (code : ErrCode) : (e.raiseError code).vn = e.vn := rfl
@[simp] theorem Engine.raiseError_count (code : ErrCode) : (e.raiseError code).count = e.count := rfl
@[simp] theorem Engine.raiseError_dist (code : ErrCode) : (e.raiseError code).dist = e.dist := rfl
@[simp] theorem Engine.raiseError_state (code : ErrCode) : (e.raiseError code).state = .idle := rfl
@[simp] theorem Engine.raiseError_err (code : ErrCode) : (e.raiseError code).err = code := rfl
@[simp] theorem Engine.raiseError_policy (code : ErrCode) : (e.raiseError code).policy = e.policy := rfl
@[simp] theorem Engine.raiseError_ascii (code : ErrCode) : (e.raiseError code).ascii = e.ascii := rfl
@[simp] theorem Engine.raiseError_pendNa (code : ErrCode) : (e.raiseError code).pendNa = false := rfl
@[simp] theorem Engine.raiseError_pendTl (code : ErrCode) : (e.raiseError code).pendTl = false := rfl
@[simp] theorem Engine.raiseError_faultCmd (code : ErrCode) : (e.raiseError code).faultCmd = e.faultCmd := rfl

/-! `Engine.clearRun` -/

@[simp] theorem Engine.clearRun_peq : (e.clearRun).peq = e.peq := rfl
@[simp] theorem Engine.clearRun_len : (e.clearRun).len = e.len := rfl
@[simp] theorem Engine.clearRun_vp : (e.clearRun).vp = BitVec.allOnes v.width := rfl
@[simp] theorem Engine.clearRun_vn : (e.clearRun).vn = 0 := rfl
@[simp] theorem Engine.clearRun_count : (e.clearRun).count = 0 := rfl
@[simp] theorem Engine.clearRun_dist : (e.clearRun).dist = 0 := rfl
@[simp] theorem Engine.clearRun_state : (e.clearRun).state = e.state := rfl
@[simp] theorem Engine.clearRun_err : (e.clearRun).err = e.err := rfl
@[simp] theorem Engine.clearRun_policy : (e.clearRun).policy = e.policy := rfl
@[simp] theorem Engine.clearRun_ascii : (e.clearRun).ascii = e.ascii := rfl
@[simp] theorem Engine.clearRun_pendNa : (e.clearRun).pendNa = e.pendNa := rfl
@[simp] theorem Engine.clearRun_pendTl : (e.clearRun).pendTl = e.pendTl := rfl
@[simp] theorem Engine.clearRun_faultCmd : (e.clearRun).faultCmd = e.faultCmd := rfl

/-! `Engine.startBuild` -/

@[simp] theorem Engine.startBuild_peq (policy ascii : Bool) : (e.startBuild policy ascii).peq = Vector.replicate 256 0 := rfl
@[simp] theorem Engine.startBuild_len (policy ascii : Bool) : (e.startBuild policy ascii).len = 0 := rfl
@[simp] theorem Engine.startBuild_vp (policy ascii : Bool) : (e.startBuild policy ascii).vp = BitVec.allOnes v.width := rfl
@[simp] theorem Engine.startBuild_vn (policy ascii : Bool) : (e.startBuild policy ascii).vn = 0 := rfl
@[simp] theorem Engine.startBuild_count (policy ascii : Bool) : (e.startBuild policy ascii).count = 0 := rfl
@[simp] theorem Engine.startBuild_dist (policy ascii : Bool) : (e.startBuild policy ascii).dist = 0 := rfl
@[simp] theorem Engine.startBuild_state (policy ascii : Bool) : (e.startBuild policy ascii).state = .build := rfl
@[simp] theorem Engine.startBuild_err (policy ascii : Bool) : (e.startBuild policy ascii).err = .none := rfl
@[simp] theorem Engine.startBuild_policy (policy ascii : Bool) : (e.startBuild policy ascii).policy = policy := rfl
@[simp] theorem Engine.startBuild_ascii (policy ascii : Bool) : (e.startBuild policy ascii).ascii = ascii := rfl
@[simp] theorem Engine.startBuild_pendNa (policy ascii : Bool) : (e.startBuild policy ascii).pendNa = false := rfl
@[simp] theorem Engine.startBuild_pendTl (policy ascii : Bool) : (e.startBuild policy ascii).pendTl = false := rfl
@[simp] theorem Engine.startBuild_faultCmd (policy ascii : Bool) : (e.startBuild policy ascii).faultCmd = e.faultCmd := rfl

/-! `Engine.startRun` -/

@[simp] theorem Engine.startRun_peq : (e.startRun).peq = e.peq := rfl
@[simp] theorem Engine.startRun_len : (e.startRun).len = e.len := rfl
@[simp] theorem Engine.startRun_vp : (e.startRun).vp = BitVec.allOnes v.width := rfl
@[simp] theorem Engine.startRun_vn : (e.startRun).vn = 0 := rfl
@[simp] theorem Engine.startRun_count : (e.startRun).count = 0 := rfl
@[simp] theorem Engine.startRun_dist : (e.startRun).dist = 0 := rfl
@[simp] theorem Engine.startRun_state : (e.startRun).state = .run := rfl
@[simp] theorem Engine.startRun_err : (e.startRun).err = e.err := rfl
@[simp] theorem Engine.startRun_policy : (e.startRun).policy = e.policy := rfl
@[simp] theorem Engine.startRun_ascii : (e.startRun).ascii = e.ascii := rfl
@[simp] theorem Engine.startRun_pendNa : (e.startRun).pendNa = e.pendNa := rfl
@[simp] theorem Engine.startRun_pendTl : (e.startRun).pendTl = e.pendTl := rfl
@[simp] theorem Engine.startRun_faultCmd : (e.startRun).faultCmd = e.faultCmd := rfl

/-! `Engine.reset`, the values of 70_reset_and_hazards.md R231, and `Engine.doReset`. -/

@[simp] theorem Engine.reset_peq (v : Variant) : (Engine.reset v).peq = Vector.replicate 256 0 := rfl
@[simp] theorem Engine.reset_len (v : Variant) : (Engine.reset v).len = 0 := rfl
@[simp] theorem Engine.reset_vp (v : Variant) : (Engine.reset v).vp = BitVec.allOnes v.width := rfl
@[simp] theorem Engine.reset_vn (v : Variant) : (Engine.reset v).vn = 0 := rfl
@[simp] theorem Engine.reset_count (v : Variant) : (Engine.reset v).count = 0 := rfl
@[simp] theorem Engine.reset_dist (v : Variant) : (Engine.reset v).dist = 0 := rfl
@[simp] theorem Engine.reset_state (v : Variant) : (Engine.reset v).state = .idle := rfl
@[simp] theorem Engine.reset_err (v : Variant) : (Engine.reset v).err = .none := rfl
@[simp] theorem Engine.reset_policy (v : Variant) : (Engine.reset v).policy = false := rfl
@[simp] theorem Engine.reset_ascii (v : Variant) : (Engine.reset v).ascii = false := rfl
@[simp] theorem Engine.reset_pendNa (v : Variant) : (Engine.reset v).pendNa = false := rfl
@[simp] theorem Engine.reset_pendTl (v : Variant) : (Engine.reset v).pendTl = false := rfl
@[simp] theorem Engine.reset_faultCmd (v : Variant) : (Engine.reset v).faultCmd = 0 := rfl
@[simp] theorem Engine.doReset_eq : e.doReset = Engine.reset v := rfl

end EngineFields

/-! The machine's own fields under `resetEngine`, `aboutToWrite` and `resetOf`. -/

@[simp] theorem State.resetEngine_variant (s : State) : s.resetEngine.variant = s.variant := rfl
@[simp] theorem State.resetEngine_engine (s : State) : s.resetEngine.engine = Engine.reset s.variant := rfl
@[simp] theorem State.resetEngine_host (s : State) : s.resetEngine.host = s.host := rfl
@[simp] theorem State.resetEngine_readLog (s : State) : s.resetEngine.readLog = s.readLog := rfl
@[simp] theorem State.aboutToWrite_variant (s : State) (w : Word16) : (s.aboutToWrite w).variant = s.variant := rfl
@[simp] theorem State.aboutToWrite_engine (s : State) (w : Word16) : (s.aboutToWrite w).engine = s.engine := rfl
@[simp] theorem State.aboutToWrite_host (s : State) (w : Word16) : (s.aboutToWrite w).host = .write w :: s.host := rfl
@[simp] theorem State.aboutToWrite_readLog (s : State) (w : Word16) : (s.aboutToWrite w).readLog = s.readLog := rfl
@[simp] theorem State.withFetchWord_eq (s : State) (nbits w : Nat) : s.withFetchWord nbits w = s.aboutToWrite (tableWord nbits w) := rfl
@[simp] theorem State.resetOf_variant (v : Variant) : (State.resetOf v).variant = v := rfl
@[simp] theorem State.resetOf_engine (v : Variant) : (State.resetOf v).engine = Engine.reset v := rfl
@[simp] theorem State.resetOf_host (v : Variant) : (State.resetOf v).host = [] := rfl
@[simp] theorem State.resetOf_readLog (v : Variant) : (State.resetOf v).readLog = [] := rfl

/-- Two machines of one build are equal when their engines and the host's side are. -/
theorem State.eq_of_engine {s : State} {e : Engine s.variant} (h : e = s.engine) : { s with engine := e } = s := by
  subst h; rfl

end Sys2Proof.Machine
end

