-- ==== Sys2Proof/Laws/Ops.lean ====
section
/-! SUPPORT. Everything the shared operations can do, said once: the Peq accesses, the acceptance order, the machine's outcome, one word, one step. -/

namespace Sys2Proof.Machine

/-! The Peq accesses. -/

section PeqAccess

variable {v : Variant} (e : Engine v)

/-- A read after a write gives the value written at the written byte and the old value everywhere else. -/
theorem Engine.peqRead_peqWrite (c d : Byte) (x : BitVec v.width) :
    (e.peqWrite c x).peqRead d = if d = c then x else e.peqRead d := by
  unfold Engine.peqRead Engine.peqWrite
  rw [Vector.getElem_set]
  by_cases h : d = c
  · simp [h]
  · have hn : ¬ c.toNat = d.toNat := fun hc => h (BitVec.eq_of_toNat_eq hc.symm)
    simp [h, hn]

@[simp] theorem Engine.peqRead_peqWrite_self (c : Byte) (x : BitVec v.width) : (e.peqWrite c x).peqRead c = x := by
  simp [Engine.peqRead_peqWrite]

theorem Engine.peqRead_peqWrite_of_ne {c d : Byte} (h : d ≠ c) (x : BitVec v.width) :
    (e.peqWrite c x).peqRead d = e.peqRead d := by
  simp [Engine.peqRead_peqWrite, h]

/-- An engine whose table is all ZERO reads ZERO everywhere. -/
theorem Engine.peqRead_of_clear {e : Engine v} (h : e.peq = Vector.replicate 256 0) (c : Byte) : e.peqRead c = 0 := by
  unfold Engine.peqRead
  simp [h]

@[simp] theorem Engine.peqRead_peqClear (c : Byte) : e.peqClear.peqRead c = 0 := Engine.peqRead_of_clear rfl c

@[simp] theorem Engine.peqRead_reset (v : Variant) (c : Byte) : (Engine.reset v).peqRead c = 0 := Engine.peqRead_of_clear rfl c

@[simp] theorem Engine.peqRead_startBuild (policy ascii : Bool) (c : Byte) : (e.startBuild policy ascii).peqRead c = 0 :=
  Engine.peqRead_of_clear rfl c

@[simp] theorem Engine.peqRead_raiseError (code : ErrCode) (c : Byte) : (e.raiseError code).peqRead c = 0 :=
  Engine.peqRead_of_clear rfl c

@[simp] theorem Engine.peqRead_raiseFault (code : ErrCode) (w : Word16) (c : Byte) :
    (e.raiseFault code w).peqRead c = e.peqRead c := rfl

@[simp] theorem Engine.peqRead_startRun (c : Byte) : e.startRun.peqRead c = e.peqRead c := rfl

/-- Reads of equal tables are equal. -/
theorem Engine.peqRead_congr {e' : Engine v} (h : e.peq = e'.peq) (c : Byte) : e.peqRead c = e'.peqRead c := by
  unfold Engine.peqRead
  simp [h]

end PeqAccess

/-! Acceptance (30_encoding.md R86, R87). -/

section Acceptance

variable {v : Variant} {i : Instr} {body : Engine v → EngineResult v} {e : Engine v}

theorem gated_accepted (h : acceptedIn i e.state = true) : gated i body e = body e := by simp [gated, h]

theorem gated_discarded (h : acceptedIn i e.state = false) (hf : e.state = .fault) : gated i body e = .ok e := by
  unfold gated
  rw [if_neg (by simp [h]), if_pos hf]

theorem gated_sequence (h : acceptedIn i e.state = false) (hf : e.state ≠ .fault) :
    gated i body e = .ok (e.raiseFault .sequence (encode i)) := by
  simp [gated, h, hf]

/-- All a gated command can do: run, be discarded in FAULT, or raise SEQUENCE. -/
theorem gated_cases {r : EngineResult v} (h : gated i body e = r) :
    (acceptedIn i e.state = true ∧ r = body e) ∨
    (acceptedIn i e.state = false ∧ e.state = .fault ∧ r = .ok e) ∨
    (acceptedIn i e.state = false ∧ e.state ≠ .fault ∧ r = .ok (e.raiseFault .sequence (encode i))) := by
  subst h
  by_cases ha : acceptedIn i e.state = true
  · exact .inl ⟨ha, gated_accepted ha⟩
  · have hf : acceptedIn i e.state = false := by simpa using ha
    by_cases hs : e.state = .fault
    · exact .inr (.inl ⟨hf, hs, gated_discarded hf hs⟩)
    · exact .inr (.inr ⟨hf, hs, gated_sequence hf hs⟩)

/-- RST is accepted in every state; nothing else is accepted in FAULT. -/
theorem acceptedIn_fault (i : Instr) : acceptedIn i .fault = decide (i = .rst) := by
  cases i <;> simp [acceptedIn]

end Acceptance

/-! The machine's outcome from the engine's. -/

section Outcome

variable {s t : State} {f : Engine s.variant → EngineResult s.variant}

theorem State.onEngine_ok {e : Engine s.variant} (h : f s.engine = .ok e) : s.onEngine f = .next { s with engine := e } := by
  simp [State.onEngine, h]

theorem State.onEngine_error {r : Fault} (h : f s.engine = .error r) : s.onEngine f = .fault r := by
  simp [State.onEngine, h]

/-- A next state differs in the engine alone, which is the one `f` answers. -/
theorem State.onEngine_next : s.onEngine f = .next t ↔ ∃ e, f s.engine = .ok e ∧ t = { s with engine := e } := by
  unfold State.onEngine
  cases h : f s.engine with
  | ok e => simp [eq_comm]
  | error r => simp

theorem State.onEngine_not_refused (r : Refusal) : s.onEngine f ≠ .refused r := by
  unfold State.onEngine
  cases f s.engine <;> simp

end Outcome

/-! Every command as a gated effect on the engine. -/

/-- The effect of an accepted command on the engine. -/
def effect (v : Variant) : Instr → Engine v → EngineResult v
  | .nop, e => .ok e
  | .rst, e => .ok e.doReset
  | .pbegin policy ascii, e => .ok (e.startBuild policy ascii)
  | .ppush b, e => e.pushByte b
  | .pend, e => .ok (e.endBuild (encode .pend))
  | .tbegin, e => .ok e.startRun
  | .tstep b, e => .ok (e.consume (encode (.tstep b)) b)
  | .tend, e => e.extract

/-- `exec` is the gated effect, for every command. -/
theorem exec_eq_effect (i : Instr) (s : State) : exec i s = s.onEngine (gated i (effect s.variant i)) := by
  cases i <;> rfl

/-- A command's next state differs from the old one in the engine alone. -/
theorem exec_next {i : Instr} {s t : State} :
    exec i s = .next t ↔ ∃ e, gated i (effect s.variant i) s.engine = .ok e ∧ t = { s with engine := e } := by
  rw [exec_eq_effect]; exact State.onEngine_next

theorem exec_not_refused (i : Instr) (s : State) (r : Refusal) : exec i s ≠ .refused r := by
  rw [exec_eq_effect]; exact State.onEngine_not_refused r

/-! One word, one step. -/

theorem issue_legal {w : Word16} {i : Instr} (h : decode w = .ok i) (s : State) : issue w s = exec i s := by
  simp [issue, h]

theorem issue_illegal {w : Word16} {d : DecodeError} (h : decode w = .error d) (s : State) :
    issue w s = if s.engine.state = .fault then .next s
      else .next { s with engine := s.engine.raiseFault .illegalCommand w } := by
  simp [issue, h]

theorem step_of_no_action {s : State} (h : s.host = []) : step s = .next s := by
  simp [step, serveNext, h]

/-- A step takes the host's next action and nothing else from it. -/
theorem step_of_action {s : State} {a : HostAction} {rest : List HostAction} (h : s.host = a :: rest) :
    step s = serve a { s with host := rest } := by
  simp [step, serveNext, h]

theorem step_aboutToWrite (s : State) (w : Word16) : step (s.aboutToWrite w) = issue w s := rfl

end Sys2Proof.Machine
end

