-- ==== Sys2Proof/Laws/Words.lean ====
section
/-! SUPPORT. The small laws of the word operations: bits, counts, masks, and the bits of a lane. -/

namespace Sys2Proof.Machine

@[simp] theorem width_scalar : Variant.width .scalar = 64 := rfl
@[simp] theorem width_wide : Variant.width .wide = 512 := rfl
@[simp] theorem lanes_scalar : Variant.lanes .scalar = 1 := rfl
@[simp] theorem lanes_wide : Variant.lanes .wide = 8 := rfl

theorem width_pos (v : Variant) : 0 < v.width := by cases v <;> simp

/-- W fits the 10 bits LEN is held in (10_state.md R27). -/
theorem width_lt_len_range (v : Variant) : v.width < 2 ^ 10 := by cases v <;> simp

theorem width_eq_lanes (v : Variant) : v.width = 64 * v.lanes := by cases v <;> rfl

theorem bitAt_ok {v : Variant} {i : Nat} (h : i < v.width) : bitAt v i = .ok (1#v.width <<< i) := by simp [bitAt, h]

theorem bitAt_error {v : Variant} {i : Nat} (h : v.width ≤ i) : bitAt v i = .error .preconditionViolated := by
  simp [bitAt, Nat.not_lt.mpr h]

/-- The bits of `bit_at(i)`. -/
theorem getLsbD_one_shift (w i j : Nat) (h : i < w) : (1#w <<< i).getLsbD j = decide (j = i) := by
  rw [BitVec.getLsbD_shiftLeft, BitVec.getLsbD_one]
  by_cases hj : j = i
  · subst hj; simp [h]; omega
  · by_cases hlt : j < i
    · simp [hj, hlt]
    · have : ¬ j - i = 0 := by omega
      simp [hj, this]

@[simp] theorem countBits_zero {w : Nat} (a : BitVec w) : countBits a 0 = 0 := rfl

theorem countBits_succ {w : Nat} (a : BitVec w) (n : Nat) : countBits a (n + 1) = countBits a n + (a.getLsbD n).toNat := rfl

/-- The count depends on the counted bits alone, whatever the widths. -/
theorem countBits_congr {w w' : Nat} {a : BitVec w} {b : BitVec w'} {n : Nat} (h : ∀ i < n, a.getLsbD i = b.getLsbD i) :
    countBits a n = countBits b n := by
  induction n with
  | zero => rfl
  | succ n ih =>
    rw [countBits_succ, countBits_succ, ih fun i hi => h i (Nat.lt_succ_of_lt hi), h n (Nat.lt_succ_self n)]

theorem countBits_le {w : Nat} (a : BitVec w) (n : Nat) : countBits a n ≤ n := by
  induction n with
  | zero => exact Nat.le_refl 0
  | succ n ih => rw [countBits_succ]; have := Bool.toNat_le (a.getLsbD n); omega

/-- Counting splits at any position. -/
theorem countBits_add {w : Nat} (a : BitVec w) (m n : Nat) :
    countBits a (m + n) = countBits a m + countBits (a >>> m) n := by
  induction n with
  | zero => rfl
  | succ n ih => rw [← Nat.add_assoc, countBits_succ, countBits_succ, ih, BitVec.getLsbD_ushiftRight, Nat.add_assoc]

/-- The bits of a lane are the register's bits at its place (00_scope.md R6). -/
theorem getLsbD_lane {w : Nat} (a : BitVec w) (j i : Nat) : (lane a j).getLsbD i = (decide (i < 64) && a.getLsbD (64 * j + i)) := by
  unfold lane
  rw [BitVec.getLsbD_extractLsb']

/-- A register's lanes, one by one. -/
theorem lanesOf_getElem (a : BitVec 512) (j : Nat) (h : j < 8) : (lanesOf a)[j]? = some (lane a j) := by
  unfold lanesOf
  simp [h]

@[simp] theorem lanesOf_length (a : BitVec 512) : (lanesOf a).length = 8 := rfl

/-- The bits of a register put together from lanes: bit i is bit i mod 64 of lane i / 64 (00_scope.md R6). -/
theorem getLsbD_ofLanes (ls : List Word64) (i : Nat) :
    (ofLanes ls).getLsbD i = (decide (i < 512) && (ls.getD (i / 64) 0).getLsbD (i % 64)) := by
  induction ls generalizing i with
  | nil => simp [ofLanes]
  | cons x rest ih =>
    show ((ofLanes rest <<< 64) ||| x.setWidth 512).getLsbD i = _
    rw [BitVec.getLsbD_or, BitVec.getLsbD_shiftLeft, BitVec.getLsbD_setWidth, ih]
    by_cases hi : i < 64
    · have h0 : i / 64 = 0 := Nat.div_eq_of_lt hi
      have hm : i % 64 = i := Nat.mod_eq_of_lt hi
      have : i < 512 := by omega
      simp [hi, h0, hm, this]
    · have hd : i / 64 = (i - 64) / 64 + 1 := by omega
      have hm : (i - 64) % 64 = i % 64 := by omega
      have hx : x.getLsbD i = false := BitVec.getLsbD_of_ge x i (by omega)
      rw [hd, List.getD_cons_succ, hm, hx]
      by_cases h5 : i < 512
      · have : i - 64 < 512 := by omega
        simp [hi, h5, this]
      · simp [h5]

/-- The lanes of a register put together give it back. -/
theorem ofLanes_lanesOf (a : BitVec 512) : ofLanes (lanesOf a) = a := by
  apply BitVec.eq_of_getLsbD_eq
  intro i hi
  have hj : i / 64 < 8 := by omega
  have hm : i % 64 < 64 := Nat.mod_lt _ (by omega)
  have hp : 64 * (i / 64) + i % 64 = i := Nat.div_add_mod i 64
  rw [getLsbD_ofLanes, List.getD_eq_getElem?_getD, lanesOf_getElem a _ hj]
  rw [Option.getD_some, getLsbD_lane, hp]
  simp [hi, hm]

theorem addW_eq (v : Variant) (a b : BitVec v.width) : addW v a b = a + b := by cases v <;> rfl

end Sys2Proof.Machine
end

