-- ==== Sys2Proof/Laws/Commands.lean ====
section
/-! SUPPORT. One law per command's effect on the engine, case by case. -/

namespace Sys2Proof.Machine

variable {v : Variant} {e : Engine v}

/-! PPUSH (41_peq.md R124). -/

theorem Engine.pushByte_below (b : Byte) (h : e.len.toNat < v.width) :
    e.pushByte b = .ok { e.peqWrite b (e.peqRead b ||| (1#v.width <<< e.len.toNat)) with
      len := e.len + 1, pendNa := e.pendNaAfter b } := by
  unfold Engine.pushByte
  simp only [h, if_true, bitAt_ok h]
  rfl

theorem Engine.pushByte_full (b : Byte) (h : v.width ≤ e.len.toNat) :
    e.pushByte b = .ok { e with pendNa := e.pendNaAfter b, pendTl := true } := by
  unfold Engine.pushByte
  simp only [Nat.not_lt.mpr h, if_false]

/-- PPUSH has no failure of its own: `bit_at(LEN)` is formed only for LEN < W (70_reset_and_hazards.md R239). -/
theorem Engine.pushByte_ok (b : Byte) : ∃ e', e.pushByte b = .ok e' := by
  by_cases h : e.len.toNat < v.width
  · exact ⟨_, Engine.pushByte_below b h⟩
  · exact ⟨_, Engine.pushByte_full b (Nat.not_lt.mp h)⟩

/-- LEN + 1 does not wrap below W (10_state.md R27). -/
theorem len_succ_toNat {n : BitVec 10} (h : n.toNat < v.width) : (n + 1).toNat = n.toNat + 1 := by
  have := width_lt_len_range v
  have hw : v.width ≤ 512 := by cases v <;> simp
  rw [BitVec.toNat_add]
  simp
  omega

/-! PEND (41_peq.md R125). -/

/-- The three ends of a construction. -/
theorem Engine.endBuild_cases (w : Word16) :
    (e.pendNa = false ∧ e.pendTl = false ∧ e.endBuild w = { e with state := .ready }) ∨
    (∃ code, e.pendingError = some code ∧ e.policy = false ∧ e.endBuild w = e.raiseFault code w) ∨
    (∃ code, e.pendingError = some code ∧ e.policy = true ∧ e.endBuild w = e.raiseError code) := by
  unfold Engine.endBuild
  cases h : e.pendingError with
  | none =>
    refine .inl ?_
    unfold Engine.pendingError at h
    cases hn : e.pendNa <;> cases ht : e.pendTl <;> simp_all
  | some code => cases hp : e.policy <;> simp

theorem Engine.pendingError_some {code : ErrCode} (h : e.pendingError = some code) :
    (e.pendNa = true ∧ code = .nonAscii) ∨ (e.pendNa = false ∧ e.pendTl = true ∧ code = .patternTooLong) := by
  unfold Engine.pendingError at h
  cases hn : e.pendNa <;> cases ht : e.pendTl <;> simp_all

/-! TSTEP (43_recurrence.md R165). -/

theorem Engine.consume_overflow (w : Word16) (b : Byte) (h : e.count = BitVec.allOnes 64) :
    e.consume w b = e.raiseFault .countOverflow w := by
  unfold Engine.consume; rw [if_pos h]

theorem Engine.consume_below (w : Word16) (b : Byte) (h : e.count ≠ BitVec.allOnes 64) :
    e.consume w b = { e with
      vp := (recurrence v (e.peqRead b) e.vp e.vn).vp
      vn := (recurrence v (e.peqRead b) e.vp e.vn).vn
      count := e.count + 1 } := by
  unfold Engine.consume; rw [if_neg h]

/-! TEND (43_recurrence.md R166). -/

theorem uptoW_ok (v : Variant) {i : Nat} (h : i ≤ v.width) : ∃ mask, uptoW v i = .ok mask := by
  cases v with
  | scalar => exact ⟨_, if_pos h⟩
  | wide => exact ⟨_, if_pos h⟩

theorem uptoW_error (v : Variant) {i : Nat} (h : v.width < i) : uptoW v i = .error .preconditionViolated := by
  cases v with
  | scalar => exact if_neg (Nat.not_le.mpr h)
  | wide => exact if_neg (Nat.not_le.mpr h)

theorem Engine.extract_ok {mask : BitVec v.width} (h : uptoW v e.len.toNat = .ok mask) :
    e.extract = .ok { e with dist := e.maskedDistance mask, state := .done } := by
  unfold Engine.extract; rw [h]; rfl

theorem Engine.extract_error (h : v.width < e.len.toNat) : e.extract = .error .preconditionViolated := by
  unfold Engine.extract; rw [uptoW_error v h]; rfl

/-- All a command's effect can answer as a next engine, command by command. -/
theorem effect_cases {i : Instr} {e' : Engine v} (h : effect v i e = .ok e') :
    (i = .nop ∧ e' = e) ∨
    (i = .rst ∧ e' = Engine.reset v) ∨
    (∃ policy ascii, i = .pbegin policy ascii ∧ e' = e.startBuild policy ascii) ∨
    (∃ b, i = .ppush b ∧
      ((e.len.toNat < v.width ∧
          e' = { e.peqWrite b (e.peqRead b ||| (1#v.width <<< e.len.toNat)) with
            len := e.len + 1, pendNa := e.pendNaAfter b }) ∨
        (v.width ≤ e.len.toNat ∧ e' = { e with pendNa := e.pendNaAfter b, pendTl := true }))) ∨
    (i = .pend ∧
      ((e.pendNa = false ∧ e.pendTl = false ∧ e' = { e with state := .ready }) ∨
        (∃ code, e.pendingError = some code ∧ e.policy = false ∧ e' = e.raiseFault code (encode .pend)) ∨
        (∃ code, e.pendingError = some code ∧ e.policy = true ∧ e' = e.raiseError code))) ∨
    (i = .tbegin ∧ e' = e.startRun) ∨
    (∃ b, i = .tstep b ∧
      ((e.count = BitVec.allOnes 64 ∧ e' = e.raiseFault .countOverflow (encode (.tstep b))) ∨
        (e.count ≠ BitVec.allOnes 64 ∧
          e' = { e with
            vp := (recurrence v (e.peqRead b) e.vp e.vn).vp
            vn := (recurrence v (e.peqRead b) e.vp e.vn).vn
            count := e.count + 1 }))) ∨
    (i = .tend ∧ ∃ mask, uptoW v e.len.toNat = .ok mask ∧ e' = { e with dist := e.maskedDistance mask, state := .done }) := by
  cases i with
  | nop => cases h; exact .inl ⟨rfl, rfl⟩
  | rst => cases h; exact .inr (.inl ⟨rfl, rfl⟩)
  | pbegin policy ascii => cases h; exact .inr (.inr (.inl ⟨policy, ascii, rfl, rfl⟩))
  | ppush b =>
    refine .inr (.inr (.inr (.inl ⟨b, rfl, ?_⟩)))
    have h : e.pushByte b = .ok e' := h
    by_cases hl : e.len.toNat < v.width
    · rw [Engine.pushByte_below _ hl] at h; cases h; exact .inl ⟨hl, rfl⟩
    · rw [Engine.pushByte_full _ (Nat.not_lt.mp hl)] at h; cases h; exact .inr ⟨Nat.not_lt.mp hl, rfl⟩
  | pend => cases h; exact .inr (.inr (.inr (.inr (.inl ⟨rfl, Engine.endBuild_cases (encode .pend)⟩))))
  | tbegin => cases h; exact .inr (.inr (.inr (.inr (.inr (.inl ⟨rfl, rfl⟩)))))
  | tstep b =>
    cases h
    refine .inr (.inr (.inr (.inr (.inr (.inr (.inl ⟨b, rfl, ?_⟩))))))
    by_cases hc : e.count = BitVec.allOnes 64
    · exact .inl ⟨hc, Engine.consume_overflow _ _ hc⟩
    · exact .inr ⟨hc, Engine.consume_below _ _ hc⟩
  | tend =>
    refine .inr (.inr (.inr (.inr (.inr (.inr (.inr ⟨rfl, ?_⟩))))))
    have h : e.extract = .ok e' := h
    cases hm : uptoW v e.len.toNat with
    | ok mask => rw [Engine.extract_ok hm] at h; cases h; exact ⟨mask, rfl, rfl⟩
    | error r => unfold Engine.extract at h; rw [hm] at h; cases h

/-- All a step can do. -/
theorem step_cases {s t : State} (h : step s = .next t) :
    (s.host = [] ∧ t = s) ∨ ∃ a rest, s.host = a :: rest ∧
      ((∃ w i e, a = .write w ∧ decode w = .ok i ∧ gated i (effect s.variant i) s.engine = .ok e ∧
          t = { s with engine := e, host := rest }) ∨
        (∃ w d, a = .write w ∧ decode w = .error d ∧ s.engine.state = .fault ∧ t = { s with host := rest }) ∨
        (∃ w d, a = .write w ∧ decode w = .error d ∧ s.engine.state ≠ .fault ∧
          t = { s with engine := s.engine.raiseFault .illegalCommand w, host := rest }) ∨
        (∃ r, a = .read r ∧ t = { s with host := rest, readLog := s.engine.readPort r :: s.readLog }) ∨
        ((a = .reset ∨ ∃ w, a = .resetDuring w) ∧ t = { s with engine := Engine.reset s.variant, host := rest }) ∨
        (a = .idle ∧ t = { s with host := rest })) := by
  cases hh : s.host with
  | nil => rw [step_of_no_action hh] at h; cases h; exact .inl ⟨rfl, rfl⟩
  | cons a rest =>
    refine .inr ⟨a, rest, rfl, ?_⟩
    rw [step_of_action hh] at h
    cases a with
    | write w =>
      have h : issue w { s with host := rest } = .next t := h
      cases hd : decode w with
      | ok i =>
        rw [issue_legal hd] at h
        obtain ⟨e, he, rfl⟩ := exec_next.mp h
        exact .inl ⟨w, i, e, rfl, hd, he, rfl⟩
      | error d =>
        rw [issue_illegal hd] at h
        by_cases hf : s.engine.state = .fault
        · rw [if_pos hf] at h; cases h; exact .inr (.inl ⟨w, d, rfl, hd, hf, rfl⟩)
        · rw [if_neg hf] at h; cases h; exact .inr (.inr (.inl ⟨w, d, rfl, hd, hf, rfl⟩))
    | read r => cases h; exact .inr (.inr (.inr (.inl ⟨r, rfl, rfl⟩)))
    | reset => cases h; exact .inr (.inr (.inr (.inr (.inl ⟨.inl rfl, rfl⟩))))
    | resetDuring w => cases h; exact .inr (.inr (.inr (.inr (.inl ⟨.inr ⟨w, rfl⟩, rfl⟩))))
    | idle => cases h; exact .inr (.inr (.inr (.inr (.inr ⟨rfl, rfl⟩))))

/-- Every command completes from an engine whose LEN is in its range (70_reset_and_hazards.md R239, R241). -/
theorem effect_ok (i : Instr) (h : e.len.toNat ≤ v.width) : ∃ e', effect v i e = .ok e' := by
  cases i with
  | ppush b => exact Engine.pushByte_ok b
  | tend =>
    obtain ⟨mask, hm⟩ := uptoW_ok v h
    exact ⟨_, Engine.extract_ok hm⟩
  | _ => exact ⟨_, rfl⟩

theorem gated_ok {i : Instr} {body : Engine v → EngineResult v} (h : ∃ e', body e = .ok e') :
    ∃ e', gated i body e = .ok e' := by
  obtain ⟨ha, hr⟩ | ⟨-, -, hr⟩ | ⟨-, -, hr⟩ := gated_cases (i := i) (body := body) (e := e) rfl
  · rw [hr]; exact h
  · exact ⟨_, hr⟩
  · exact ⟨_, hr⟩

end Sys2Proof.Machine
end

