-- ==== Sys2Proof/Laws/PerInstr.lean ====
section
/-! SUPPORT. The per-command family `TableRow`: a command's word is legal and belongs to exactly the row of opcode_table.json that
carries its mnemonic. -/

namespace Sys2Proof.Laws.TableRow

open Sys2Proof

/-- The command's fields are legal (30_encoding.md R82), and of the table's rows its word belongs to its own and to no other. -/
def Statement (i : Instr) : Prop :=
  i.wellFormed = true ∧ (opcodeTable.filter fun r => r.covers (encode i)).map OpcodeRow.mnemonic = [i.mnemonic]

theorem nop : Statement .nop := by unfold Statement; decide
theorem rst : Statement .rst := by unfold Statement; decide
theorem pbegin (policy ascii : Bool) : Statement (.pbegin policy ascii) := by
  unfold Statement; revert policy ascii; decide
theorem ppush (b : Byte) : Statement (.ppush b) := by
  unfold Statement; revert b; decide +kernel
theorem pend : Statement .pend := by unfold Statement; decide
theorem tbegin : Statement .tbegin := by unfold Statement; decide
theorem tstep (b : Byte) : Statement (.tstep b) := by
  unfold Statement; revert b; decide +kernel
theorem tend : Statement .tend := by unfold Statement; decide

end Sys2Proof.Laws.TableRow
end

