-- ==== Sys2Proof/Laws/Run.lean ====
section
/-! SUPPORT. Runs of written command words, reduced to the engine: a run of `writes ws` is `engineRun ws` on the engine. -/

namespace Sys2Proof.Machine

/-- One command word on the engine alone (30_encoding.md R86). -/
def engineIssue {v : Variant} (w : Word16) (e : Engine v) : EngineResult v :=
  match decode w with
  | .ok i => gated i (effect v i) e
  | .error _ => if e.state = .fault then .ok e else .ok (e.raiseFault .illegalCommand w)

/-- Command words in order on the engine alone, stopping at the first model-level fault. -/
def engineRun {v : Variant} : List Word16 → Engine v → EngineResult v
  | [], e => .ok e
  | w :: ws, e => engineIssue w e >>= engineRun ws

theorem issue_eq_engineIssue (w : Word16) (s : State) : issue w s = s.onEngine (engineIssue w) := by
  unfold issue engineIssue
  cases decode w with
  | ok i => exact exec_eq_effect i s
  | error d =>
    by_cases h : s.engine.state = .fault
    · simp [State.onEngine, h]
    · simp [State.onEngine, h]

theorem engineRun_cons_ok {v : Variant} {w : Word16} {ws : List Word16} {e e' : Engine v} (h : engineIssue w e = .ok e') :
    engineRun (w :: ws) e = engineRun ws e' := by
  show engineIssue w e >>= engineRun ws = _
  rw [h]; rfl

/-- A run of a concatenation goes on where the first part ended. -/
theorem engineRun_append {v : Variant} {ws ws' : List Word16} {e e' : Engine v} (h : engineRun ws e = .ok e') :
    engineRun (ws ++ ws') e = engineRun ws' e' := by
  induction ws generalizing e with
  | nil => cases h; rfl
  | cons w ws ih =>
    cases hw : engineIssue w e with
    | error r =>
      have : engineRun (w :: ws) e = .error r := by
        show engineIssue w e >>= engineRun ws = _
        rw [hw]; rfl
      rw [this] at h; cases h
    | ok e₁ =>
      rw [engineRun_cons_ok hw] at h
      rw [List.cons_append, engineRun_cons_ok hw]
      exact ih h

/-- `k + 1` steps are one step and `k` more. -/
theorem run_succ_next {k : Nat} {s t : State} (h : step s = .next t) :
    Sys2Proof.core.run (k + 1) s = Sys2Proof.core.run k t := by
  have hc : Sys2Proof.core.step s = .next t := h
  simp only [Host.Core.run, hc]

/-- The machine's run over written words is the engine's, the host's further actions left in place. -/
theorem run_writes (ws : List Word16) (rest : List HostAction) (s : State) {e : Engine s.variant}
    (h : engineRun ws s.engine = .ok e) :
    Sys2Proof.core.run ws.length { s with host := writes ws ++ rest } = .next { s with engine := e, host := rest } := by
  induction ws generalizing s with
  | nil => cases h; rfl
  | cons w ws ih =>
    cases hw : engineIssue w s.engine with
    | error r =>
      have : engineRun (w :: ws) s.engine = .error r := by
        show engineIssue w s.engine >>= engineRun ws = _
        rw [hw]; rfl
      rw [this] at h; cases h
    | ok e₁ =>
      rw [engineRun_cons_ok hw] at h
      have hstep : step { s with host := writes (w :: ws) ++ rest } =
          .next { s with engine := e₁, host := writes ws ++ rest } := by
        rw [step_of_action (a := .write w) (rest := writes ws ++ rest) rfl]
        exact (issue_eq_engineIssue w _).trans (State.onEngine_ok (s := { s with host := writes ws ++ rest }) hw)
      rw [List.length_cons, run_succ_next hstep]
      exact ih { s with engine := e₁ } h

end Sys2Proof.Machine
end

