-- ==== Sys2Proof/Tests/Slice0.lean ====
section
/-! SUPPORT. The model's own tests: decoding of written-out words, the refusals of WellFormed, one step per command with the values of
spec/95_test_vectors.md, the primitives' vectors, the read map, and a witness for the hypotheses of every statement. -/

namespace Sys2Proof.Tests

open Sys2Proof Sys2Proof.Machine

/-! ## Helpers -/

/-- The reset engine put in the given STATE. -/
def engineIn (v : Variant) (q : CtlState) : Engine v := { Engine.reset v with state := q }

/-- A machine of a build with the given engine and a host that does nothing. -/
def withEngine {v : Variant} (e : Engine v) : State := { State.resetOf v with engine := e }

/-- The reset machine put in the given STATE. -/
def stateIn (v : Variant) (q : CtlState) : State := withEngine (engineIn v q)

/-- The same with one action for the host. -/
def acting (s : State) (a : HostAction) : State := { s with host := [a] }

/-- The engine of the one-byte pattern 'A', in the given STATE. -/
def holdsA (v : Variant) (q : CtlState) : Engine v := { (engineIn v q).peqWrite 0x41 1 with len := 1 }

/-- What is asked of the engine after a step that must answer a next state. -/
def after (o : Host.Outcome State Fault Refusal) (p : State → Bool) : Bool :=
  match o with
  | .next s => p s
  | _ => false

/-- A 64-bit word of ones, `M64` of 95_test_vectors.md. -/
def m64 : Word64 := 0xFFFFFFFFFFFFFFFF

/-! ## Decoding: words written out from 30_encoding.md R80 to R84 -/

theorem test_decode_nop : decode 0b0000_0000_00000000 = .ok .nop := by decide
theorem test_decode_rst : decode 0b0001_0000_00000000 = .ok .rst := by decide
theorem test_decode_pbegin_trusted : decode 0b0010_0000_00000000 = .ok (.pbegin false false) := by decide
theorem test_decode_pbegin_recoverable : decode 0b0010_0001_00000000 = .ok (.pbegin true false) := by decide
theorem test_decode_pbegin_ascii : decode 0b0010_0010_00000000 = .ok (.pbegin false true) := by decide
theorem test_decode_ppush : decode 0b0011_0000_01000001 = .ok (.ppush 0x41) := by decide
theorem test_decode_pend : decode 0b0100_0000_00000000 = .ok .pend := by decide
theorem test_decode_tbegin : decode 0b0101_0000_00000000 = .ok .tbegin := by decide
theorem test_decode_tstep : decode 0b0110_0000_10000001 = .ok (.tstep 0x81) := by decide
theorem test_decode_tend : decode 0b0111_0000_00000000 = .ok .tend := by decide
/-- The illegal words of 95_test_vectors.md section 2.5. -/
theorem test_illegal_words :
    ([0x0001, 0x0100, 0x1001, 0x2001, 0x2400, 0x2800, 0x3100, 0x4001, 0x5100, 0x7001, 0x6800, 0x8000, 0x9ABC, 0xF0FF, 0xFFFF] :
      List Word16).all (fun w => !legalWord w && (decode w).toOption.isNone) = true := by decide
/-- The refusals name their reason. -/
theorem test_decode_refusals_named :
    decode 0x9ABC = .error (.reservedOpcode 0x9) ∧ decode 0x3100 = .error (.nonzeroFlags 0x1) ∧
      decode 0x2400 = .error (.reservedFlag 0x4) ∧ decode 0x4001 = .error (.nonzeroByte 0x01) := by decide
theorem test_table_word : decodeTableWord 16 0x6041 = some (.tstep 0x41) ∧ decodeTableWord 16 0x8000 = none := by decide

/-! ## WellFormed: an ill-formed format for each check, refused -/

theorem test_refuses_flags_without_operand : (F16.mk 0x0 0x1 0).wellFormed = false := by decide
theorem test_refuses_byte_without_operand : (F16.mk 0x4 0 0x01).wellFormed = false := by decide
theorem test_refuses_pbegin_reserved_flag : (F16.mk 0x2 0x4 0).wellFormed = false ∧ (F16.mk 0x2 0x8 0).wellFormed = false := by decide
theorem test_refuses_pbegin_byte : (F16.mk 0x2 0x3 0x01).wellFormed = false := by decide
theorem test_refuses_byte_command_flags : (F16.mk 0x3 0x1 0x41).wellFormed = false ∧ (F16.mk 0x6 0x8 0).wellFormed = false := by decide
theorem test_refuses_reserved_opcodes : (F16.mk 0x8 0 0).wellFormed = false ∧ (F16.mk 0xF 0 0xFF).wellFormed = false := by decide
theorem test_accepts_each_shape :
    (F16.mk 0x7 0 0).wellFormed = true ∧ (F16.mk 0x2 0x3 0).wellFormed = true ∧ (F16.mk 0x6 0 0xFF).wellFormed = true := by decide

/-! ## One step per command (95_test_vectors.md section 2) -/

/-- NOP in RUN with COUNT 3 leaves COUNT 3 (section 2.5). -/
theorem test_nop : after (exec .nop (withEngine { engineIn .wide .run with count := 3 }))
    (fun t => t.engine.count == 3 && t.engine.state == .run) = true := by decide +kernel
/-- RST in FAULT with ERR 4 and FAULT_CMD 0x6041 (44_control.md R191, example). -/
theorem test_rst : exec .rst (withEngine { engineIn .scalar .fault with err := .sequence, faultCmd := 0x6041, len := 5 })
    = .next (stateIn .scalar .idle) := rfl
/-- PBEGIN recoverable, ascii in RUN: STATUS 0xC01, LEN 0 (RS2). -/
theorem test_pbegin : after (exec (.pbegin true true) (withEngine { holdsA .scalar .run with count := 2, vn := 3 }))
    (fun t => t.engine.status == 0xC01 && t.engine.len == 0 && t.engine.peqRead 0x41 == 0 && t.engine.vn == 0) = true := by
  decide +kernel
/-- PPUSH at LEN 64 of WIDE sets bit 0 of lane 1 (PQ12). -/
theorem test_ppush_crosses_a_lane : after (exec (.ppush 0x43) (withEngine { engineIn .wide .build with len := 64 }))
    (fun t => (t.engine.peqRead 0x43).setWidth 512 == ofLanes [0, 1] && t.engine.len == 65 && !t.engine.pendTl) = true := by decide +kernel
/-- The 65th byte of SCALAR, non-ASCII under ASCII: no bit, PEND_NA and PEND_TL, STATUS 0xB01 (PQ8, PQ15, trusted). -/
theorem test_ppush_full : after (exec (.ppush 0x80) (withEngine { engineIn .scalar .build with len := 64, ascii := true }))
    (fun t => t.engine.status == 0xB01 && t.engine.len == 64 && t.engine.peqRead 0x80 == 0) = true := by decide +kernel
/-- PEND with both pending flags, trusted, ascii: NON_ASCII wins, STATUS 0xB27, FAULT_CMD 0x4000, LEN kept (PQ17). -/
theorem test_pend_fault : after (exec .pend (withEngine
    { engineIn .scalar .build with len := 64, ascii := true, pendNa := true, pendTl := true }))
    (fun t => t.engine.status == 0xB27 && t.engine.faultCmd == 0x4000 && t.engine.len == 64) = true := by decide +kernel
/-- PEND with PEND_TL, recoverable: STATUS 0x410, LEN 0, every entry ZERO, FAULT_CMD 0 (PQ7). -/
theorem test_pend_error : after (exec .pend (withEngine { holdsA .scalar .build with len := 64, policy := true, pendTl := true }))
    (fun t => t.engine.status == 0x410 && t.engine.len == 0 && t.engine.peqRead 0x41 == 0 && t.engine.faultCmd == 0) = true := by
  decide +kernel
/-- TBEGIN in DONE with DIST 1 (RS3) keeps the table. -/
theorem test_tbegin : after (exec .tbegin (withEngine { holdsA .scalar .done with count := 5, dist := 1, vp := 0, vn := 0x17 }))
    (fun t => t.engine.status == 3 && t.engine.count == 0 && t.engine.dist == 0 && t.engine.vp.setWidth 64 == m64 && t.engine.vn == 0
      && t.engine.peqRead 0x41 == 1 && t.engine.len == 1) = true := by decide +kernel
/-- TSTEP 'A' from the start of a run (43_recurrence.md R165, example), in WIDE: lane 0 as in SCALAR, the other lanes of VP all ones. -/
theorem test_tstep : after (exec (.tstep 0x41) (withEngine (holdsA .wide .run)))
    (fun t => t.engine.vp.setWidth 512 == ofLanes [0xFFFFFFFFFFFFFFFE, m64, m64, m64, m64, m64, m64, m64] && t.engine.vn == 1
      && t.engine.count == 1) = true := by decide +kernel
/-- TSTEP 'C' at COUNT = 2^64 − 1: STATUS 0x57, FAULT_CMD 0x6043, COUNT, VP and VN unchanged (section 2.4). -/
theorem test_tstep_overflow : after (exec (.tstep 0x43) (withEngine { engineIn .scalar .run with count := m64, vn := 1 }))
    (fun t => t.engine.status == 0x57 && t.engine.faultCmd == 0x6043 && t.engine.count == m64 && t.engine.vp.setWidth 64 == m64
      && t.engine.vn == 1) = true := by decide +kernel
/-- TEND of "ACCCT" against "ACCTT": 5 + 0 − 4 = 1 (43_recurrence.md R166, example). -/
theorem test_tend : after (exec .tend (withEngine
    { engineIn .scalar .run with len := 5, count := 5, vp := 0xFFFFFFFFFFFFFFE0#64, vn := 0x17#64 }))
    (fun t => t.engine.dist == 1 && t.engine.status == 4) = true := by decide +kernel
/-- TEND of P5: LEN 80, COUNT 79, VN = [M64, 0xEEFF], VP = [0, 0xFFFFFFFFFFFF1000, M64, …]: DIST 2. -/
theorem test_tend_wide : after (exec .tend (withEngine
    { engineIn .wide .run with
      len := 80, count := 79, vn := ofLanes [m64, 0xEEFF], vp := ofLanes [0, 0xFFFFFFFFFFFF1000, m64, m64, m64, m64, m64, m64] }))
    (fun t => t.engine.dist == 2) = true := by decide +kernel
/-- Step 4 of the SCALAR trace of section 2.4: every intermediate. -/
theorem test_trace_row : recurrence .scalar 0x10#64 0xFFFFFFFFFFFFFFF8#64 0x07#64 =
    { sum := 0x8#64, d0 := 0xFFFFFFFFFFFFFFF0#64, hp := 0x7#64, hn := 0xFFFFFFFFFFFFFFF0#64, xh := 0x17#64, hpShifted := 0x0F#64
      vp := 0xFFFFFFFFFFFFFFE0#64, vn := 0x07#64 } := by decide +kernel

/-! ## The host's actions -/

/-- 0x3100 in IDLE reports ILLEGAL_COMMAND, not SEQUENCE (section 2.5). -/
theorem test_step_illegal_first : after (step (acting (stateIn .scalar .idle) (.write 0x3100)))
    (fun t => t.engine.status == 0x37 && t.engine.faultCmd == 0x3100) = true := by decide +kernel
/-- In FAULT the word 0x1001 is discarded (section 2.5, P6). -/
theorem test_step_fault_discards : after (step (acting (withEngine { engineIn .wide .fault with err := .sequence, faultCmd := 0x5000 })
    (.write 0x1001))) (fun t => t.engine.status == 0x47 && t.engine.faultCmd == 0x5000) = true := by decide +kernel
/-- A reset during a TEND: none of its effects appear (70_reset_and_hazards.md R230). -/
theorem test_step_reset_during : after (step (acting (withEngine { engineIn .scalar .run with count := 7 }) (.resetDuring 0x7000)))
    (fun t => t.engine.status == 0 && t.engine.dist == 0 && t.engine.count == 0) = true := by decide +kernel
/-- A command word placed by `withFetchWord` runs as the first command after reset. -/
theorem test_fetch_word : after (step (State.reset.withFetchWord 16 0x2100)) (fun t => t.engine.status == 0x401) = true := by
  decide +kernel

/-! ## The primitives (sections 2.1, 2.2) -/

theorem test_bit_at : bitAt .wide 64 = .ok (ofLanes [0, 1]) ∧ bitAt .scalar 64 = .error .preconditionViolated := by decide +kernel
theorem test_scalar_words : add64 1 m64 = 0 ∧ shl1_64 0x8000000000000000 = 0 ∧ mask64 64 = .ok m64 ∧
    mask64 65 = .error .preconditionViolated ∧ popcount64 0x17 = 4 ∧ bitOr 0x1#64 0xE#64 = 0xF#64 := by decide +kernel
/-- WA2: the carry crosses every lane in 7 rounds. -/
theorem test_carry_wa2 : carryAdd 0 (ofLanes [m64, m64, m64, m64, m64, m64, m64, 0]) 1 =
    { sums := [0, 0, 0, 0, 0, 0, 0, 1], carries := List.replicate 8 false, rounds := 7 } := by decide +kernel
/-- WA7 and WA8: the carry out of lane 7 is lost without a round, and a carry ripples through a full lane in 2. -/
theorem test_carry_wa7_wa8 :
    (carryAdd 0 (ofLanes [0, 0, 0, 0, 0, 0, 0, m64]) (ofLanes [0, 0, 0, 0, 0, 0, 0, 1])).sums = List.replicate 8 0 ∧
    (carryAdd 0 (ofLanes [0, 0, 0, 0, 0, 0, 0, m64]) (ofLanes [0, 0, 0, 0, 0, 0, 0, 1])).rounds = 0 ∧
    (carryAdd 0 (ofLanes [0, 0, 0x8000000000000000, m64]) (ofLanes [0, 0, 0x8000000000000000])).sums = [0, 0, 0, 0, 1, 0, 0, 0] ∧
    (carryAdd 0 (ofLanes [0, 0, 0x8000000000000000, m64]) (ofLanes [0, 0, 0x8000000000000000])).rounds = 2 := by decide +kernel
/-- WS1, WS2, WS6, WS7, WS9. -/
theorem test_shl512 : shl512 (ofLanes [0x8000000000000000]) 1 = .ok (ofLanes [0, 1]) ∧ shl512 (1 <<< 511) 1 = .ok 0 ∧
    shl512 (ofLanes [m64]) 63 = .ok (ofLanes [0x8000000000000000, 0x7FFFFFFFFFFFFFFF]) ∧
    shl512 (ofLanes [0x123]) 64 = .ok (ofLanes [0, 0x123]) ∧ shl512 1 65 = .error .preconditionViolated := by decide +kernel
/-- WU1, WU4, WU5, WU7, WU8. -/
theorem test_upto512 : upto512 0 = .ok 0 ∧ upto512 64 = .ok (ofLanes [m64]) ∧ upto512 65 = .ok (ofLanes [m64, 1]) ∧
    upto512 512 = .ok (BitVec.allOnes 512) ∧ upto512 513 = .error .preconditionViolated := by decide +kernel
/-- WP2, WP3. -/
theorem test_popcount512 : popcount512 (ofLanes (List.replicate 8 0x5555555555555555)) = 256 ∧ popcount512 (1 ||| (1 <<< 511)) = 2 := by
  decide +kernel

/-! ## The read map (section 2.8) -/

theorem test_id_cfg : idCfg .scalar = 0x10040 ∧ idCfg .wide = 0x1080200 := by decide
/-- RM4, RM5, RM6: VP lane 0 in SCALAR, the absent lane 1, and lane 7 in WIDE. -/
theorem test_vp_windows : (Engine.reset .scalar).readPort 0x010 = m64 ∧ (Engine.reset .scalar).readPort 0x011 = 0 ∧
    (Engine.reset .wide).readPort 0x017 = m64 ∧ (Engine.reset .wide).readPort 0x018 = 0 := by decide +kernel
/-- RM7, RM10: PEQ windows at 0x400 + 8·c + j. -/
theorem test_peq_windows : (holdsA .scalar .ready).readPort 0x608 = 1 ∧
    ((engineIn .wide .ready).peqWrite 0x43 (ofLanes [0, 1])).readPort 0x619 = 1 := by decide +kernel
/-- RM11: reserved addresses. -/
theorem test_reserved_reads : ([0x006, 0x00F, 0x020, 0x3FF, 0xC00, 0xFFF] : List ReadAddr).all
    (fun a => (holdsA .wide .run).readPort a == 0) = true := by decide +kernel

/-! ## The assembler and the sequences (30_encoding.md R89 to R93) -/

/-- The words of P1. -/
theorem test_edit_distance_words : editDistance [0x41, 0x43, 0x43, 0x43, 0x54] [0x41, 0x43, 0x43, 0x54, 0x54] =
    [0x2000, 0x3041, 0x3043, 0x3043, 0x3043, 0x3054, 0x4000, 0x5000, 0x6041, 0x6043, 0x6043, 0x6054, 0x6054, 0x7000] := by decide
/-- P7's lines, with a comment and lower case. -/
theorem test_assemble : assemble ["pbegin recoverable, ascii  ; 2300".toList, "PSTR \"A\\x80;C\"".toList, "pend".toList,
    "; nothing".toList, "TSTEP 'T'".toList] = .ok [0x2300, 0x3041, 0x3080, 0x303B, 0x3043, 0x4000, 0x6054] := by decide +kernel
theorem test_assembly_errors : assembleLine "PPUSH 256".toList = .error .badOperand ∧ assembleLine "RST 1".toList = .error .badOperand ∧
    assembleLine ".word 0x8000".toList = .error .unknownMnemonic := by decide +kernel
/-- The openings of log entry 4 about the end of the mnemonic and about a bare backslash: the model's choices, not the spec's. -/
theorem test_assembly_choices : assembleLine "PBEGIN, ascii".toList = .error .unknownMnemonic ∧
    assembleLine "PPUSH'A'".toList = .error .unknownMnemonic ∧ assembleLine "PSTR \"A\\B\"".toList = .error .badOperand := by decide +kernel

/-! ## The reference distance (00_scope.md R10) -/

/-- 95_test_vectors.md section 1.1, the last two scenarios, and a substitution. -/
theorem test_lev : lev [] [0x41, 0x42, 0x43] = 3 ∧ lev [0x41, 0x42, 0x43] [] = 3 ∧ lev [0x41] [0x42] = 1 ∧ lev [0x41] [0x41] = 0 := by
  decide

end Sys2Proof.Tests
end

