-- ==== Sys2Proof/Tests/Witnesses.lean ====
section
/-! SUPPORT. Witnesses: for every statement of Certificates/Slice0/Obligations.lean that has hypotheses, concrete states and operands that meet
all of them together, clause by clause, at the ends of their ranges. Each theorem is named after its statement. -/

namespace Sys2Proof.Tests

open Sys2Proof Sys2Proof.Machine

/-! ## Shared concrete facts -/

/-- The one-byte table holds the pattern "A". -/
theorem holdsA_holdsPattern (v : Variant) (q : CtlState) : (holdsA v q).HoldsPattern [0x41] := by
  refine ⟨by cases v <;> decide, rfl, fun c i => ?_⟩
  have hr : (holdsA v q).peqRead c = if c = 0x41 then 1 else 0 := by
    show ((engineIn v q).peqWrite 0x41 1).peqRead c = _
    rw [Engine.peqRead_peqWrite]
    by_cases hc : c = 0x41
    · rw [if_pos hc, if_pos hc]
    · rw [if_neg hc, if_neg hc]; exact Engine.peqRead_of_clear rfl c
  have hb : (1 : BitVec v.width).getLsbD i = decide (i = 0) := by cases v <;> simp [BitVec.getLsbD_one]
  rw [hr]
  cases i with
  | zero =>
    by_cases hc : c = 0x41
    · subst hc; rw [if_pos rfl, hb]; rfl
    · have hn : ¬ ([0x41] : List Byte)[0]? = some c := fun h => hc (Option.some.inj h).symm
      rw [if_neg hc, decide_eq_false hn]; exact BitVec.getLsbD_zero
  | succ i =>
    have hn : ¬ ([0x41] : List Byte)[i + 1]? = some c := by simp
    rw [decide_eq_false hn]
    by_cases hc : c = 0x41
    · rw [if_pos hc, hb]; simp
    · rw [if_neg hc]; exact BitVec.getLsbD_zero

/-- The empty table holds the empty pattern. -/
theorem reset_holdsPattern (v : Variant) (q : CtlState) : (engineIn v q).HoldsPattern [] := by
  refine ⟨Nat.zero_le _, rfl, fun c i => ?_⟩
  rw [Engine.peqRead_of_clear rfl]; simp

/-- In RUN with VP and VN as TBEGIN leaves them, the one-byte table has consumed the empty text. -/
theorem holdsA_hasConsumed (v : Variant) : (holdsA v .run).HasConsumed [0x41] [] := by
  refine ⟨rfl, holdsA_holdsPattern v .run, rfl, fun i hi => ?_⟩
  have h0 : i = 0 := by simpa using hi
  subst h0
  cases v <;> decide +kernel

/-- The one-byte table in READY meets the invariant. -/
theorem holdsA_inv (v : Variant) : (holdsA v .ready).Inv := by
  obtain ⟨hw, hl, hp⟩ := holdsA_holdsPattern v .ready
  constructor
  · rw [hl]; exact hw
  · intro c i hi
    rw [hl] at hi
    rw [hp, List.getElem?_eq_none hi]; rfl
  · intro i hi
    rw [hl] at hi
    have h0 : i = 0 := by simpa using hi
    subst h0
    exact ⟨0x41, fun c' => by rw [hp]; simp [eq_comm]⟩
  · cases v <;> decide +kernel
  · intro h; cases h
  · intro _; exact ⟨rfl, rfl, rfl⟩
  all_goals simp [holdsA, engineIn]

/-- A machine about to do one action, as the hypotheses ask. -/
theorem acting_host (s : State) (a : HostAction) : (acting s a).host = a :: [] := rfl

/-! ## Encoding -/

theorem witness_DecodeAndEncodeAreInverse : decode 0x60FF = .ok (.tstep 0xFF) ∧ decode 0x2300 = .ok (.pbegin true true) := by decide
theorem witness_DecodeFollowsTheOpcodeTable : decode 0x3000 = .ok (.ppush 0) ∧ decode 0x8000 = .error (.reservedOpcode 0x8) := by decide

/-! ## The step and reset -/

theorem witness_WrittenWordFollowsTheDecodingOrder :
    ((stateIn .scalar .fault).engine.state = .fault ∧ (0x1001 : Word16) ≠ 0x1000) ∧
    ((stateIn .wide .idle).engine.state ≠ .fault ∧ legalWord 0x1001 = false) ∧
    ((stateIn .scalar .idle).engine.state ≠ .fault ∧ decode 0x5000 = .ok .tbegin ∧ acceptedIn .tbegin .idle = false) ∧
    (decode 0x1000 = .ok .rst ∧ acceptedIn .rst .fault = true) ∧ (decode 0x3041 = .ok (.ppush 0x41) ∧ acceptedIn (.ppush 0x41) .build = true) := by
  decide +kernel
theorem witness_StepRunsTheDecodedCommand :
    ((acting State.reset (.write 0x2100)).host = .write 0x2100 :: [] ∧ decode 0x2100 = .ok (.pbegin true false)) ∧
    decodeTableWord 16 0x7000 = some .tend := by decide +kernel
theorem witness_ReadsHaveNoSideEffect :
    (acting State.reset (.read 0xFFF)).host = .read 0xFFF :: [] ∧
    ({ State.reset with host := [.read 1, .read 1] } : State).host = .read 1 :: .read 1 :: [] ∧
    ((acting State.reset .idle).host = .idle :: [] ∧ (∀ w, HostAction.idle ≠ .write w) ∧ (∀ w, HostAction.idle ≠ .resetDuring w) ∧
      HostAction.idle ≠ .reset) := by
  refine ⟨rfl, rfl, rfl, ?_, ?_, ?_⟩ <;> simp
theorem witness_EngineHoldsStateWhileTheHostWaits :
    State.reset.host = [] ∧ ({ State.reset with host := [.idle, .idle, .reset] } : State).host = List.replicate 2 .idle ++ [.reset] := by
  exact ⟨rfl, rfl⟩
theorem witness_VariantNeverChanges : ∃ t, step (acting (stateIn .wide .run) .reset) = .next t := ⟨_, rfl⟩
theorem witness_ResetEventGivesTheResetState :
    (acting (stateIn .scalar .run) .reset).host = .reset :: [] ∧ (acting (stateIn .wide .run) (.resetDuring 0x7000)).host = .resetDuring 0x7000 :: [] :=
  ⟨rfl, rfl⟩

/-! ## Commands -/

theorem witness_NopChangesNothing : ((0x0001 : Word16).extractLsb' 12 4 = 0x0 ∧ (0x0001 : Word16) ≠ 0x0000) ∧
    ((0x0FFF : Word16).extractLsb' 12 4 = 0x0 ∧ (0x0FFF : Word16) ≠ 0x0000) := by decide
theorem witness_RstResetsAndAloneLeavesFault :
    (∃ t, (stateIn .scalar .fault).engine.state = .fault ∧ exec .rst (stateIn .scalar .fault) = .next t ∧ t.engine.state ≠ .fault) ∧
    (∃ t, (stateIn .wide .idle).engine.state = .idle ∧ exec (.tstep 7) (stateIn .wide .idle) = .next t ∧
      ∀ policy ascii, Instr.tstep 7 ≠ .pbegin policy ascii) ∧
    (acting (stateIn .wide .fault) (.write 0x1001)).host = .write 0x1001 :: [] := by
  refine ⟨⟨_, rfl, rfl, ?_⟩, ⟨_, rfl, rfl, ?_⟩, rfl⟩
  · decide
  · simp
theorem witness_PbeginStartsAConstruction : (stateIn .scalar .build).engine.state ≠ .fault ∧ (stateIn .wide .done).engine.state ≠ .fault := by decide
theorem witness_PpushAppendsOneByte :
    (∀ v, (stateIn v .build).engine.state = .build ∧ (stateIn v .build).engine.len.toNat < v.width) ∧
    (let s := withEngine { engineIn .wide .build with len := 511 }; s.engine.state = .build ∧ s.engine.len.toNat < s.variant.width) ∧
    (let s := withEngine { engineIn .wide .build with len := 512 }; s.engine.state = .build ∧ s.variant.width ≤ s.engine.len.toNat) ∧
    (let s := withEngine { engineIn .scalar .build with len := 64 }; s.engine.state = .build ∧ s.variant.width ≤ s.engine.len.toNat) ∧
    ((stateIn .scalar .ready).engine.state ≠ .build ∧ (stateIn .scalar .ready).engine.state ≠ .fault) := by
  refine ⟨fun v => by cases v <;> decide, by decide, by decide, by decide, by decide⟩
theorem witness_PendFreezesOrReports :
    (let s := stateIn .scalar .build; s.engine.state = .build ∧ s.engine.pendNa = false ∧ s.engine.pendTl = false) ∧
    (let s := withEngine { engineIn .wide .build with pendNa := true, pendTl := true }; s.engine.state = .build ∧ s.engine.pendNa = true ∧ s.engine.policy = false) ∧
    (let s := withEngine { engineIn .wide .build with pendTl := true, policy := true }; s.engine.state = .build ∧ s.engine.pendNa = false ∧ s.engine.pendTl = true ∧ s.engine.policy = true) ∧
    ((stateIn .scalar .run).engine.state ≠ .build ∧ (stateIn .scalar .run).engine.state ≠ .fault) := by decide
theorem witness_RecoverableErrorLeavesNoTable :
    (let s := withEngine { engineIn .wide .build with pendTl := true, policy := true }; s.engine.state = .build ∧ s.engine.policy = true ∧ (s.engine.pendNa = true ∨ s.engine.pendTl = true)) ∧
    ∃ t, let s := withEngine { engineIn .wide .build with pendNa := true, policy := true }; exec .pend s = .next t ∧ s.engine.state ≠ .idle ∧ t.engine.state = .idle := by
  refine ⟨by decide, ⟨_, rfl, ?_, ?_⟩⟩ <;> decide
theorem witness_ModeBitsHoldForTheConstruction : ∃ t, exec .pend (stateIn .scalar .build) = .next t ∧ Instr.pend ≠ .rst ∧
    ∀ policy ascii, Instr.pend ≠ .pbegin policy ascii := ⟨_, rfl, by simp, by simp⟩
theorem witness_FrozenTableIsImmutable :
    (∃ e : Engine .wide, (stateIn .wide .run).engine.state = .run ∧ exec (.tstep 0) (stateIn .wide .run) = .next { stateIn .wide .run with engine := e } ∧
      Instr.tstep 0 ≠ .rst ∧ ∀ policy ascii, Instr.tstep 0 ≠ .pbegin policy ascii) ∧
    (∃ e : Engine .scalar, (stateIn .scalar .ready).engine.state = .ready ∧
      exec (.pbegin false true) (stateIn .scalar .ready) = .next { stateIn .scalar .ready with engine := e }) ∧
    ∃ e : Engine .wide, (stateIn .wide .done).engine.state = .done ∧ exec .rst (stateIn .wide .done) = .next { stateIn .wide .done with engine := e } :=
  ⟨⟨_, rfl, rfl, by simp, by simp⟩, ⟨_, rfl, rfl⟩, _, rfl, rfl⟩
theorem witness_TbeginStartsARun :
    (stateIn .scalar .ready).engine.state = .ready ∧ (stateIn .scalar .run).engine.state = .run ∧ (stateIn .wide .done).engine.state = .done ∧
    (stateIn .scalar .idle).engine.state = .idle ∧ (stateIn .wide .build).engine.state = .build := by decide
theorem witness_TstepRunsTheRecurrence :
    (let s := withEngine { engineIn .wide .run with count := 0xFFFFFFFFFFFFFFFE }; s.engine.state = .run ∧ s.engine.count.toNat < 2 ^ 64 - 1) ∧
    (let s := withEngine { engineIn .scalar .run with count := 0xFFFFFFFFFFFFFFFF }; s.engine.state = .run ∧ s.engine.count.toNat = 2 ^ 64 - 1) ∧
    ((stateIn .wide .done).engine.state ≠ .run ∧ (stateIn .wide .done).engine.state ≠ .fault) := by decide
theorem witness_CountOverflowOnlyAtTheLastCount :
    ∃ t, let s := withEngine { engineIn .scalar .run with count := 0xFFFFFFFFFFFFFFFF }; s.engine.state = .run ∧ s.engine.count.toNat = 2 ^ 64 - 1 ∧ exec (.tstep 0) s = .next t ∧ s.engine.err ≠ .countOverflow ∧
        t.engine.err = .countOverflow := by
  refine ⟨_, rfl, by decide, rfl, by decide, by decide⟩
theorem witness_TendExtractsTheDistance :
    (let s := withEngine { engineIn .wide .run with len := 512 }; s.engine.state = .run ∧ s.engine.len.toNat ≤ s.variant.width) ∧
    (let s := withEngine { engineIn .scalar .run with len := 64 }; s.engine.state = .run ∧ s.engine.len.toNat ≤ s.variant.width) ∧
    ((stateIn .scalar .done).engine.state ≠ .run ∧ (stateIn .scalar .done).engine.state ≠ .fault) := by decide
theorem witness_EmptyTextGivesThePatternLength :
    let s := withEngine { engineIn .wide .done with len := 512 }; s.engine.state = .done ∧ s.engine.len.toNat ≤ s.variant.width := by decide

/-! ## The automaton and the faults -/

theorem witness_TransitionTable :
    (let s := withEngine { engineIn .scalar .run with len := 64 }; s.engine.len.toNat ≤ s.variant.width) ∧
    ((acting (stateIn .wide .done) (.write 0xFFFF)).host = .write 0xFFFF :: [] ∧ legalWord 0xFFFF = false ∧
      (stateIn .wide .done).engine.state ≠ .fault) := by decide
theorem witness_OutOfOrderCommandRaisesSequence :
    (stateIn .scalar .idle).engine.state ≠ .fault ∧ (stateIn .scalar .idle).engine.state ≠ .build ∧
    (stateIn .scalar .idle).engine.state = .idle ∧ (stateIn .scalar .idle).engine.state ≠ .run := by decide
theorem witness_IllegalWordRaisesIllegalCommand :
    ((acting (stateIn .scalar .idle) (.write 0x2400)).host = .write 0x2400 :: [] ∧ legalWord 0x2400 = false ∧
      (stateIn .scalar .idle).engine.state ≠ .fault) ∧
    (0x8 ≤ ((0x8000 : Word16).extractLsb' 12 4).toNat ∧ 0x8 ≤ ((0xFFFF : Word16).extractLsb' 12 4).toNat) := by decide
theorem witness_FaultEntryIsPrecise :
    ∃ t, let s := acting (stateIn .wide .run) (.write 0x3041); s.host = .write 0x3041 :: [] ∧ s.engine.state ≠ .fault ∧ step s = .next t ∧ t.engine.state = .fault := by
  refine ⟨_, rfl, by decide, rfl, by decide⟩
theorem witness_FaultStateIsSticky :
    (let s : State := { stateIn .scalar .fault with host := [.write 0x2000, .read 5, .idle, .write 0x8000, .write 0x1000] }; s.engine.state = .fault ∧ s.host = [.write 0x2000, .read 5, .idle, .write 0x8000] ++ [.write 0x1000] ∧
      ∀ a ∈ ([.write 0x2000, .read 5, .idle, .write 0x8000] : List HostAction),
        (∃ w, a = .write w ∧ w ≠ 0x1000) ∨ (∃ r, a = .read r) ∨ a = .idle) ∧
    (acting (stateIn .scalar .fault) (.read 1)).host = .read 1 :: [] ∧
    (acting (stateIn .scalar .fault) (.write 0x1000)).host = .write 0x1000 :: [] := by
  refine ⟨⟨rfl, rfl, ?_⟩, rfl, rfl⟩
  simp
theorem witness_NoRunReachesAnUndefinedCase : (withEngine (holdsA .wide .ready)).Inv := holdsA_inv .wide
theorem witness_TendStopsOnlyOutsideTheLengthRange :
    (let s := withEngine { engineIn .scalar .run with len := 65 }; s.engine.state = .run ∧ s.variant.width < s.engine.len.toNat) ∧
    (let s := withEngine { engineIn .scalar .run with len := 64 }; s.engine.state = .run ∧ ¬ s.variant.width < s.engine.len.toNat) := by decide
theorem witness_EveryStepKeepsTheInvariant :
    ∃ t, (acting (withEngine (holdsA .scalar .ready)) (.write 0x5000)).Inv ∧
      step (acting (withEngine (holdsA .scalar .ready)) (.write 0x5000)) = .next t := ⟨_, holdsA_inv .scalar, rfl⟩

/-! ## The word operations -/

theorem witness_BitAtSetsExactlyOneBit : 0 < Variant.scalar.width ∧ 511 < Variant.wide.width ∧ Variant.scalar.width ≤ 64 ∧ Variant.wide.width ≤ 512 := by
  decide
theorem witness_VariantBindingComputesTheSameFunctions :
    0 ≤ Variant.scalar.width ∧ 64 ≤ Variant.scalar.width ∧ 512 ≤ Variant.wide.width ∧ Variant.scalar.width < 65 ∧ Variant.wide.width < 513 := by decide
theorem witness_CrossLaneShiftIsTheWholeShift : (0 ≤ 64 ∧ 64 ≤ 64) ∧ 64 < 65 := by decide
theorem witness_UptoMaskHasExactlyTheLowBits : (0 ≤ 512 ∧ 512 ≤ 512) ∧ (511 < 512 ∧ 7 < 8) ∧ 512 < 513 := by decide
/-- Two registers that differ above bit 2, one SCALAR and one WIDE. -/
theorem witness_InformationFlowsOnlyUpward :
    2 < Variant.scalar.width ∧ 2 < Variant.wide.width ∧ ∀ i ≤ 2,
      (5 : BitVec Variant.scalar.width).getLsbD i = (13 : BitVec Variant.wide.width).getLsbD i ∧
      (7 : BitVec Variant.scalar.width).getLsbD i = (7 : BitVec Variant.wide.width).getLsbD i ∧
      (0 : BitVec Variant.scalar.width).getLsbD i = (8 : BitVec Variant.wide.width).getLsbD i := by decide +kernel
theorem witness_InformationFlowsOnlyUpward_top : 63 < Variant.scalar.width ∧ 511 < Variant.wide.width := by decide

/-! ## The read port -/

theorem witness_ReadMap :
    (0 < 8 ∧ 7 < 8) ∧ ((0x006 : ReadAddr).toNat ≥ 0x006 ∧ (0x00F : ReadAddr).toNat ≤ 0x00F) ∧
    ((0x020 : ReadAddr).toNat ≥ 0x020 ∧ (0x3FF : ReadAddr).toNat ≤ 0x3FF) ∧ (0xC00 : ReadAddr).toNat ≥ 0xC00 ∧ (0xFFF : ReadAddr).toNat ≥ 0xC00 := by
  decide

/-! ## Whole constructions and runs -/

theorem witness_ConstructionBuildsThePatternTable :
    (stateIn .scalar .run).engine.state ≠ .fault ∧ (List.replicate 64 (0x7F : Byte)).length ≤ Variant.scalar.width ∧
    (true = true → ∀ b ∈ List.replicate 64 (0x7F : Byte), b.toNat < 0x80) := by
  refine ⟨by decide, by decide, fun _ b hb => ?_⟩
  rw [List.eq_of_mem_replicate hb]; decide
theorem witness_FailedConstructionReportsItsError :
    (stateIn .scalar .idle).engine.state ≠ .fault ∧
    (true = true ∧ ∃ b ∈ ([0x41, 0x80] : List Byte), 0x80 ≤ b.toNat) ∧
    ((false = true → ∀ b ∈ List.replicate 65 (0xFF : Byte), b.toNat < 0x80) ∧
      Variant.scalar.width < (List.replicate 65 (0xFF : Byte)).length) := by decide
theorem witness_TbeginGivesColumnZero :
    (withEngine (holdsA .wide .ready)).engine.state = .ready ∧ (withEngine (holdsA .wide .ready)).engine.HoldsPattern [0x41] :=
  ⟨rfl, holdsA_holdsPattern .wide .ready⟩
theorem witness_TstepAdvancesOneColumn :
    (withEngine (holdsA .scalar .run)).engine.HasConsumed [0x41] [] ∧ ([] : List Byte).length < 2 ^ 64 - 1 :=
  ⟨holdsA_hasConsumed .scalar, by decide⟩
theorem witness_TendWritesTheLevenshteinDistance : (withEngine (holdsA .wide .run)).engine.HasConsumed [0x41] [] := holdsA_hasConsumed .wide
theorem witness_RunOnABuiltTableComputesLevenshtein :
    (withEngine (engineIn .scalar .done)).engine.state = .done ∧ (withEngine (engineIn .scalar .done)).engine.HoldsPattern [] ∧
    ([0x41, 0xFF] : List Byte).length < 2 ^ 64 := ⟨rfl, reset_holdsPattern .scalar .done, by decide⟩
theorem witness_EditDistanceSequenceComputesLevenshtein :
    (stateIn .wide .done).engine.state ≠ .fault ∧ (List.replicate 512 (0 : Byte)).length ≤ (stateIn .wide .done).variant.width ∧
    ([] : List Byte).length < 2 ^ 64 := by
  refine ⟨by decide, ?_, by decide⟩
  rw [List.length_replicate]; decide
theorem witness_DistanceRange :
    (stateIn .scalar .idle).engine.state ≠ .fault ∧ (List.replicate 64 (0 : Byte)).length ≤ (stateIn .scalar .idle).variant.width ∧
    ([0x41] : List Byte).length < 2 ^ 64 := by decide
theorem witness_IdentityAndBothCallOrdersAgree :
    (stateIn .scalar .idle).engine.state ≠ .fault ∧ (stateIn .wide .run).engine.state ≠ .fault ∧
    ([0x41] : List Byte).length ≤ (stateIn .scalar .idle).variant.width ∧ ([0x42, 0x43] : List Byte).length ≤ (stateIn .wide .run).variant.width := by
  decide
/-- Two engines of the pattern "A" in a run that differ in every bit of VP above LEN. -/
theorem witness_PaddingBitsNeverAffectTheDistance :
    let s := withEngine (holdsA .scalar .run);
    let s' := withEngine { holdsA .scalar .run with vp := 1 };
    Engine.AgreesBelow s.engine.len.toNat s.engine s'.engine ∧ s.engine.state = .run ∧
      s.engine.len.toNat ≤ s.variant.width ∧ s.engine.len.toNat ≤ s'.variant.width ∧ s.engine.vp ≠ s'.engine.vp := by
  refine ⟨⟨fun _ _ _ => rfl, ?_, fun _ _ => rfl, rfl, rfl, rfl, rfl, rfl, rfl, rfl, rfl, rfl, rfl⟩, rfl, ?_, ?_, ?_⟩
  · decide +kernel
  · decide
  · decide
  · show (BitVec.allOnes 64 : BitVec 64) ≠ 1#64; decide
/-- The two reset engines, with LEN at both ends of the premise. -/
theorem agree_reset (n : BitVec 10) (q : CtlState) :
    Engine.AgreesBelow 64 { engineIn .scalar q with len := n } { engineIn .wide q with len := n } := by
  have hones : ∀ i < 64, (BitVec.allOnes Variant.scalar.width).getLsbD i = (BitVec.allOnes Variant.wide.width).getLsbD i := by
    intro i hi
    simp only [BitVec.getLsbD_allOnes, width_scalar, width_wide]
    simp only [hi, show i < 512 by omega]
  have hzero : ∀ i < 64, (0#Variant.scalar.width).getLsbD i = (0#Variant.wide.width).getLsbD i := by
    intro i _
    simp only [BitVec.getLsbD_zero]
  refine ⟨fun c i _ => ?_, hones, hzero, rfl, rfl, rfl, rfl, rfl, rfl, rfl, rfl, rfl, rfl⟩
  rw [Engine.peqRead_of_clear rfl, Engine.peqRead_of_clear rfl]
  simp
theorem witness_BackendsAgreeOnEveryCommand :
    (let s := withEngine { engineIn .scalar .run with len := 64 };
      let s' := withEngine { engineIn .wide .run with len := 64 };
      s.variant = .scalar ∧ s'.variant = .wide ∧ Engine.AgreesBelow 64 s.engine s'.engine ∧ s.engine.len.toNat ≤ 64 ∧
        ((∃ b, Instr.tend = .ppush b) → s.engine.state = .build → s.engine.len.toNat < 64)) ∧
    (let s := withEngine { engineIn .scalar .build with len := 63 };
      let s' := withEngine { engineIn .wide .build with len := 63 };
      s.variant = .scalar ∧ s'.variant = .wide ∧ Engine.AgreesBelow 64 s.engine s'.engine ∧ s.engine.len.toNat ≤ 64 ∧
        ((∃ b, Instr.ppush 0 = .ppush b) → s.engine.state = .build → s.engine.len.toNat < 64)) := by
  exact ⟨⟨rfl, rfl, agree_reset 64 .run, by decide, by simp⟩, ⟨rfl, rfl, agree_reset 63 .build, by decide, fun _ _ => by decide⟩⟩
theorem witness_BackendsReturnIdenticalDistances :
    (stateIn .scalar .idle).variant = .scalar ∧ (stateIn .wide .done).variant = .wide ∧ (stateIn .scalar .idle).engine.state ≠ .fault ∧
    (stateIn .wide .done).engine.state ≠ .fault ∧ (List.replicate 64 (0x41 : Byte)).length ≤ 64 ∧ ([0x41] : List Byte).length < 2 ^ 64 := by decide
theorem witness_TryEditDistanceNeverFaults :
    ((stateIn .scalar .idle).engine.state ≠ .fault ∧ ([0x41] : List Byte).length < 2 ^ 64) ∧
    (List.replicate 64 (0x41 : Byte)).length ≤ (stateIn .scalar .idle).variant.width ∧
    (stateIn .scalar .idle).variant.width < (List.replicate 65 (0x41 : Byte)).length := by decide
theorem witness_AssemblerReadsEveryByte :
    "PPUSH".toList.map Char.toUpper = "PPUSH".toList ∧ "tStep".toList.map Char.toUpper = "TSTEP".toList ∧
    (0x20 ≤ (0x20 : Byte).toNat ∧ (0x20 : Byte).toNat ≤ 0x7E) ∧ (0x20 ≤ (0x7E : Byte).toNat ∧ (0x7E : Byte).toNat ≤ 0x7E) := by decide

end Sys2Proof.Tests
end

/-! SUPPORT. The register read map said once, region by region and field by field (10_state.md R34 to R38), and the statements of the state
family settled from it. -/

namespace Sys2Proof.Machine

/-! The read map (10_state.md R35, R37). -/

/-- An address written as a number within the 12-bit space stands for that number. -/
theorem readAddr_toNat {n : Nat} (h : n < 4096) : (BitVec.ofNat 12 n).toNat = n := by
  rw [BitVec.toNat_ofNat, Nat.mod_eq_of_lt h]

/-- A lane window shows bits [64j+63:64j] for j < LANES and 0 above (10_state.md R35, R37). -/
theorem laneWindow_eq {v : Variant} (x : BitVec v.width) (j : Nat) :
    laneWindow v x j = if j < v.lanes then x.extractLsb' (64 * j) 64 else 0 := rfl

section ReadMap

variable {v : Variant} (e : Engine v)

@[simp] theorem Engine.readPort_idCfg : e.readPort 0x000 = idCfg v := rfl
@[simp] theorem Engine.readPort_status : e.readPort 0x001 = e.status := rfl
@[simp] theorem Engine.readPort_len : e.readPort 0x002 = e.len.setWidth 64 := rfl
@[simp] theorem Engine.readPort_count : e.readPort 0x003 = e.count := rfl
@[simp] theorem Engine.readPort_dist : e.readPort 0x004 = e.dist := rfl
@[simp] theorem Engine.readPort_faultCmd : e.readPort 0x005 = e.faultCmd.setWidth 64 := rfl

/-- Above the six single registers only the lane windows and the reserved addresses are left. -/
theorem Engine.readPort_of_ge {a : ReadAddr} (h : 0x006 ≤ a.toNat) :
    e.readPort a =
      if 0x010 ≤ a.toNat ∧ a.toNat < 0x018 then laneWindow v e.vp (a.toNat - 0x010)
      else if 0x018 ≤ a.toNat ∧ a.toNat < 0x020 then laneWindow v e.vn (a.toNat - 0x018)
      else if 0x400 ≤ a.toNat ∧ a.toNat < 0xC00 then
        laneWindow v (e.peqRead (BitVec.ofNat 8 ((a.toNat - 0x400) / 8))) ((a.toNat - 0x400) % 8)
      else 0 := by
  have hne : ∀ n < 6, a.toNat ≠ n := by omega
  simp [Engine.readPort, hne]

/-- The VP windows start at 0x010. -/
theorem Engine.readPort_vp {a : ReadAddr} {j : Nat} (hj : j < 8) (ha : a.toNat = 0x010 + j) :
    e.readPort a = laneWindow v e.vp j := by
  rw [readPort_of_ge e (by omega), if_pos (by omega), ha, Nat.add_sub_cancel_left]

/-- The VN windows start at 0x018. -/
theorem Engine.readPort_vn {a : ReadAddr} {j : Nat} (hj : j < 8) (ha : a.toNat = 0x018 + j) :
    e.readPort a = laneWindow v e.vn j := by
  rw [readPort_of_ge e (by omega), if_neg (by omega), if_pos (by omega), ha, Nat.add_sub_cancel_left]

/-- The PEQ windows start at 0x400, eight to an entry. -/
theorem Engine.readPort_peq {a : ReadAddr} {c : Byte} {j : Nat} (hj : j < 8) (ha : a.toNat = 0x400 + 8 * c.toNat + j) :
    e.readPort a = laneWindow v (e.peqRead c) j := by
  have hc : c.toNat < 256 := c.isLt
  have hentry : (a.toNat - 0x400) / 8 = c.toNat := by omega
  have hlane : (a.toNat - 0x400) % 8 = j := by omega
  rw [readPort_of_ge e (by omega), if_neg (by omega), if_neg (by omega), if_pos (by omega), hentry, hlane,
    BitVec.ofNat_toNat, BitVec.setWidth_eq]

/-- The three gaps of the map read 0 (R37). -/
theorem Engine.readPort_reserved {a : ReadAddr}
    (h : (0x006 ≤ a.toNat ∧ a.toNat ≤ 0x00F) ∨ (0x020 ≤ a.toNat ∧ a.toNat ≤ 0x3FF) ∨ 0xC00 ≤ a.toNat) :
    e.readPort a = 0 := by
  rw [readPort_of_ge e (by omega), if_neg (by omega), if_neg (by omega), if_neg (by omega)]

end ReadMap

/-! STATUS (10_state.md R36). -/

section Status

variable {v : Variant} (e : Engine v)

/-- STATE stands in the lowest three bits. -/
theorem Engine.status_state : e.status.extractLsb' 0 3 = e.state.code := BitVec.extractLsb'_append_eq_right

/-- ERR stands above STATE and the reserved bit 3. -/
theorem Engine.status_err : e.status.extractLsb' 4 4 = e.err.code := by
  unfold Engine.status
  rw [BitVec.extractLsb'_append_eq_of_le (by decide : 3 ≤ 4), BitVec.extractLsb'_append_eq_of_le (by decide : 1 ≤ 4 - 3)]
  exact BitVec.extractLsb'_append_eq_right

/-- The single bits: the reserved bit 3 and the four flags. -/
theorem Engine.status_bits :
    e.status.getLsbD 3 = false ∧ e.status.getLsbD 8 = e.pendNa ∧ e.status.getLsbD 9 = e.pendTl ∧
      e.status.getLsbD 10 = e.policy ∧ e.status.getLsbD 11 = e.ascii := by
  simp only [Engine.status, BitVec.getLsbD_append]
  simp

/-- Everything above the flags reads 0. -/
theorem Engine.status_high : e.status.extractLsb' 12 52 = 0 := by
  unfold Engine.status
  iterate 7 rw [BitVec.extractLsb'_append_eq_of_le]
  all_goals decide

end Status

/-! ID_CFG (10_state.md R34). -/

theorem idCfg_scalar : idCfg .scalar = 0x0000000000010040 := by decide

theorem idCfg_wide : idCfg .wide = 0x0000000001080200 := by decide

/-- W, LANES and VARIANT stand in ID_CFG at R34's places, and the bits above read 0. -/
theorem idCfg_fields (v : Variant) :
    ((idCfg v).extractLsb' 0 16).toNat = v.width ∧ ((idCfg v).extractLsb' 16 8).toNat = v.lanes ∧
      (idCfg v).getLsbD 24 = decide (v = .wide) ∧ (idCfg v).extractLsb' 25 39 = 0 := by
  cases v with
  | scalar => rw [idCfg_scalar]; decide
  | wide => rw [idCfg_wide]; decide

/-! One action of the host that is no command and no reset. -/

section HostSide

variable {s : State} {rest : List HostAction}

/-- A read adds the word it returns to the host's record and changes nothing else (10_state.md R38). -/
theorem step_of_read {a : ReadAddr} (h : s.host = .read a :: rest) :
    step s = .next { s with host := rest, readLog := s.engine.readPort a :: s.readLog } :=
  step_of_action h

/-- While the host idles only its own list moves on (60_exceptions.md R217). -/
theorem step_of_idle (h : s.host = .idle :: rest) : step s = .next { s with host := rest } :=
  step_of_action h

end HostSide

/-! The obligations of the state family. -/

/-- Settles O8: the second read of a pair meets the engine the first one met. -/
theorem readsHaveNoSideEffect : Obligations.ReadsHaveNoSideEffect := by
  unfold Obligations.ReadsHaveNoSideEffect
  refine ⟨fun s a rest => step_of_read, fun s a rest h => ⟨s.engine.readPort a, ?_⟩, ?_⟩
  · rw [run_succ_next (step_of_read h), run_succ_next (step_of_read rfl)]
    rfl
  · intro s h rest hh hwrite hduring hreset
    cases h with
    | write w => exact absurd rfl (hwrite w)
    | read a => exact ⟨_, step_of_read hh⟩
    | reset => exact absurd rfl hreset
    | resetDuring w => exact absurd rfl (hduring w)
    | idle => exact ⟨s.readLog, step_of_idle hh⟩

/-- Settles O45, region by region of the address space. -/
theorem readMap : Obligations.ReadMap := by
  unfold Obligations.ReadMap
  intro v e
  refine ⟨e.readPort_idCfg, e.readPort_status, ?len, e.readPort_count, e.readPort_dist, ?faultCmd, ?vp, ?vn, ?peq,
    fun a => e.readPort_reserved⟩
  case len => rw [e.readPort_len, BitVec.toNat_setWidth_of_le (by decide)]
  case faultCmd => rw [e.readPort_faultCmd, BitVec.toNat_setWidth_of_le (by decide)]
  case vp =>
    intro j hj
    rw [e.readPort_vp hj (readAddr_toNat (by omega)), laneWindow_eq]
  case vn =>
    intro j hj
    rw [e.readPort_vn hj (readAddr_toNat (by omega)), laneWindow_eq]
  case peq =>
    intro c j hj
    have hc : c.toNat < 256 := c.isLt
    rw [e.readPort_peq hj (readAddr_toNat (by omega)), laneWindow_eq]

/-- Settles O43, field by field. -/
theorem statusFields : Obligations.StatusFields := by
  unfold Obligations.StatusFields
  refine ⟨fun v e => ?_, rfl, rfl⟩
  obtain ⟨hzero, hna, htl, hpolicy, hascii⟩ := e.status_bits
  exact ⟨e.readPort_status, e.status_state, hzero, e.status_err, hna, htl, hpolicy, hascii, e.status_high⟩

/-- Settles O44: no field of the engine occurs in the word read at address 0. -/
theorem idCfgDescribesTheBuild : Obligations.IdCfgDescribesTheBuild := by
  unfold Obligations.IdCfgDescribesTheBuild
  exact ⟨fun v e => e.readPort_idCfg, idCfg_scalar, idCfg_wide, idCfg_fields⟩

end Sys2Proof.Machine

/-! SUPPORT. What the decoder accepts and what a written word does, step of the decoding order by step (30_encoding.md R86), the transition
table said once per command (R87), and the statements of the encoding family settled from them. -/

namespace Sys2Proof

/-! The decoder against the encoder (30_encoding.md R80 to R84). -/

/-- The three fields make up the whole word. -/
@[simp] theorem F16.toWord_ofWord (w : Word16) : (F16.ofWord w).toWord = w := by
  show w.extractLsb' 12 4 ++ w.extractLsb' 8 4 ++ w.extractLsb' 0 8 = w
  rw [BitVec.extractLsb'_append_extractLsb'_eq_extractLsb' (show 12 = 8 + 4 from rfl),
    BitVec.extractLsb'_append_extractLsb'_eq_extractLsb' (show 8 = 0 + 8 from rfl)]
  exact BitVec.extractLsb'_eq_self

/-- A command without an operand is decoded from its own fields alone. -/
theorem toF16_of_decodePlain {i j : Instr} {f : F16} (hi : i.toF16 = ⟨f.op, 0, 0⟩) (h : decodePlain i f = .ok j) :
    j.toF16 = f := by
  unfold decodePlain at h
  split at h
  · cases h
  · next hflags =>
    split at h
    · cases h
    · next hbyte =>
      cases h
      rw [hi, ← not_not.mp hflags, ← not_not.mp hbyte]

/-- A command with a byte operand is decoded from its own fields alone. -/
theorem toF16_of_decodeByte {i : Byte → Instr} {j : Instr} {f : F16} (hi : ∀ b, (i b).toF16 = ⟨f.op, 0, b⟩)
    (h : decodeByte i f = .ok j) : j.toF16 = f := by
  unfold decodeByte at h
  split at h
  · cases h
  · next hflags =>
    cases h
    rw [hi, ← not_not.mp hflags]

/-- A FLAGS field with its reserved bits zero is made up of its two flags (30_encoding.md R83). -/
theorem flags_eq_of_reserved_zero : ∀ x : BitVec 4, ¬ (x.getLsbD 2 || x.getLsbD 3) = true →
    0#2 ++ BitVec.ofBool (x.getLsbD 1) ++ BitVec.ofBool (x.getLsbD 0) = x := by
  decide

/-- PBEGIN is decoded from its own fields alone. -/
theorem toF16_of_decodePbegin {j : Instr} {f : F16} (hop : f.op = 0x2) (h : decodePbegin f = .ok j) : j.toF16 = f := by
  unfold decodePbegin at h
  split at h
  · cases h
  · next hreserved =>
    split at h
    · cases h
    · next hbyte =>
      cases h
      show F16.mk 0x2 (0#2 ++ BitVec.ofBool (f.flags.getLsbD 1) ++ BitVec.ofBool (f.flags.getLsbD 0)) 0 = f
      rw [flags_eq_of_reserved_zero f.flags hreserved, ← hop, ← not_not.mp hbyte]

/-- Fields that decode are the fields of the command they decode to: opcode by opcode. -/
theorem toF16_of_decodeFields {f : F16} {i : Instr} (h : decodeFields f = .ok i) : i.toF16 = f := by
  have hop {n : Nat} (hn : f.op.toNat = n) : BitVec.ofNat 4 n = f.op := by rw [← hn, BitVec.ofNat_toNat, BitVec.setWidth_eq]
  unfold decodeFields at h
  split at h
  · next hn => exact toF16_of_decodePlain (hop hn ▸ rfl) h
  · next hn => exact toF16_of_decodePlain (hop hn ▸ rfl) h
  · next hn => exact toF16_of_decodePbegin (hop hn).symm h
  · next hn => exact toF16_of_decodeByte (fun _ => hop hn ▸ rfl) h
  · next hn => exact toF16_of_decodePlain (hop hn ▸ rfl) h
  · next hn => exact toF16_of_decodePlain (hop hn ▸ rfl) h
  · next hn => exact toF16_of_decodeByte (fun _ => hop hn ▸ rfl) h
  · next hn => exact toF16_of_decodePlain (hop hn ▸ rfl) h
  · cases h

/-- A word that decodes is the encoding of its command. -/
theorem encode_of_decode {w : Word16} {i : Instr} (h : decode w = .ok i) : encode i = w := by
  have hfields : i.toF16 = F16.ofWord w := toF16_of_decodeFields h
  rw [encode, hfields, F16.toWord_ofWord]

/-- Every command's fields are legal, since its operands have exactly the encoding's ranges (30_encoding.md R82). -/
theorem wellFormed_toF16 (i : Instr) : i.toF16.wellFormed = true := by
  cases i with
  | nop => exact Laws.TableRow.nop.1
  | rst => exact Laws.TableRow.rst.1
  | pbegin policy ascii => exact (Laws.TableRow.pbegin policy ascii).1
  | ppush b => exact (Laws.TableRow.ppush b).1
  | pend => exact Laws.TableRow.pend.1
  | tbegin => exact Laws.TableRow.tbegin.1
  | tstep b => exact (Laws.TableRow.tstep b).1
  | tend => exact Laws.TableRow.tend.1

/-- A word that decodes is legal. -/
theorem legalWord_of_decode {w : Word16} {i : Instr} (h : decode w = .ok i) : legalWord w = true := by
  have hfields : i.toF16 = F16.ofWord w := toF16_of_decodeFields h
  rw [legalWord, ← hfields, wellFormed_toF16]

/-- An illegal word is refused by the decoder. -/
theorem decode_error_of_illegal {w : Word16} (h : legalWord w = false) : ∃ d, decode w = .error d := by
  cases hd : decode w with
  | ok i => exact absurd (legalWord_of_decode hd) (by simp [h])
  | error d => exact ⟨d, rfl⟩

end Sys2Proof

namespace Sys2Proof.Machine

/-! One written word, step of the decoding order by step (30_encoding.md R86). -/

section DecodingOrder

variable {v : Variant} {e : Engine v} {w : Word16} {i : Instr}

theorem engineIssue_legal (h : decode w = .ok i) : engineIssue w e = gated i (effect v i) e := by
  simp [engineIssue, h]

/-- FAULT discards every word but 0x1000, legal or not (60_exceptions.md R209). -/
theorem engineIssue_discarded (hf : e.state = .fault) (hw : w ≠ 0x1000) : engineIssue w e = .ok e := by
  cases hd : decode w with
  | ok i =>
    have hrst : i ≠ .rst := by
      rintro rfl
      exact hw (encode_of_decode hd).symm
    have hrefused : acceptedIn i e.state = false := by rw [hf, acceptedIn_fault, decide_eq_false hrst]
    rw [engineIssue_legal hd, gated_discarded hrefused hf]
  | error d => simp [engineIssue, hd, hf]

theorem engineIssue_illegal (hf : e.state ≠ .fault) (hw : legalWord w = false) :
    engineIssue w e = .ok (e.raiseFault .illegalCommand w) := by
  obtain ⟨d, hd⟩ := decode_error_of_illegal hw
  simp [engineIssue, hd, hf]

theorem engineIssue_sequence (hf : e.state ≠ .fault) (hd : decode w = .ok i) (ha : acceptedIn i e.state = false) :
    engineIssue w e = .ok (e.raiseFault .sequence w) := by
  rw [engineIssue_legal hd, gated_sequence ha hf, encode_of_decode hd]

theorem engineIssue_accepted (hd : decode w = .ok i) (ha : acceptedIn i e.state = true) :
    engineIssue w e = effect v i e := by
  rw [engineIssue_legal hd, gated_accepted ha]

end DecodingOrder

/-- A written word's step is its effect on the engine, with the host's action taken. -/
theorem step_of_write {s : State} {w : Word16} {rest : List HostAction} (h : s.host = .write w :: rest) :
    step s = { s with host := rest }.onEngine (engineIssue w) := by
  rw [step_of_action h]
  exact issue_eq_engineIssue w _

/-- The step of a written word whose engine answer is known. -/
theorem step_of_write_ok {s : State} {w : Word16} {rest : List HostAction} {e : Engine s.variant}
    (h : s.host = .write w :: rest) (he : engineIssue w s.engine = .ok e) :
    step s = .next { s with host := rest, engine := e } := by
  rw [step_of_write h]
  exact State.onEngine_ok (s := { s with host := rest }) he

/-- `onEngine` looks at its function at the engine alone. -/
theorem State.onEngine_congr {s : State} {f g : Engine s.variant → EngineResult s.variant} (h : f s.engine = g s.engine) :
    s.onEngine f = s.onEngine g := by
  unfold State.onEngine
  rw [h]

/-- Settles O6: one law of the decoding order for each clause. -/
theorem writtenWordFollowsTheDecodingOrder : Obligations.WrittenWordFollowsTheDecodingOrder := by
  unfold Obligations.WrittenWordFollowsTheDecodingOrder
  intro s w rest hh
  refine ⟨?discarded, ?illegal, ?sequence, ?accepted⟩
  case discarded =>
    intro hf hw
    exact step_of_write_ok hh (engineIssue_discarded hf hw)
  case illegal =>
    intro hf hw
    exact step_of_write_ok hh (engineIssue_illegal hf hw)
  case sequence =>
    intro hf i hd ha
    exact step_of_write_ok hh (engineIssue_sequence hf hd ha)
  case accepted =>
    intro i hd ha
    have hw : encode i = w := encode_of_decode hd
    rw [step_of_write hh]
    refine State.onEngine_congr ((engineIssue_accepted hd ha).trans ?_)
    subst hw
    cases i <;> rfl

/-! The transition table, command by command (30_encoding.md R87). -/

section Table

variable {v : Variant} {e e' : Engine v} {i : Instr}

/-- The states in which TBEGIN is accepted. -/
theorem acceptedIn_tbegin {q : CtlState} : acceptedIn .tbegin q = true ↔ q = .ready ∨ q = .run ∨ q = .done := by
  cases q <;> decide

/-- The SEQ cells and the discarded ones all read FAULT: table and acceptance, each written cell by cell, are compared cell by cell. -/
theorem Engine.tableState_of_refused (h : acceptedIn i e.state = false) : e.tableState i = .fault := by
  unfold Engine.tableState
  revert h
  cases e.state <;> cases i <;> simp [acceptedIn]

theorem Engine.tableState_nop : e.tableState .nop = e.state := by
  unfold Engine.tableState
  cases e.state <;> rfl

theorem Engine.tableState_rst : e.tableState .rst = .idle := by
  unfold Engine.tableState
  cases e.state <;> rfl

theorem Engine.tableState_pbegin {policy ascii : Bool} (h : e.state ≠ .fault) :
    e.tableState (.pbegin policy ascii) = .build := by
  unfold Engine.tableState
  cases hs : e.state with
  | fault => exact absurd hs h
  | _ => rfl

theorem Engine.tableState_ppush {b : Byte} (h : e.state = .build) : e.tableState (.ppush b) = .build := by
  simp [Engine.tableState, h]

theorem Engine.tableState_pend (h : e.state = .build) :
    e.tableState .pend =
      if e.pendNa = false ∧ e.pendTl = false then .ready else if e.policy then .idle else .fault := by
  simp [Engine.tableState, h]

theorem Engine.tableState_tbegin (h : e.state = .ready ∨ e.state = .run ∨ e.state = .done) :
    e.tableState .tbegin = .run := by
  obtain h | h | h := h <;> simp [Engine.tableState, h]

theorem Engine.tableState_tstep {b : Byte} (h : e.state = .run) :
    e.tableState (.tstep b) = if e.count.toNat = 2 ^ 64 - 1 then .fault else .run := by
  simp [Engine.tableState, h]

theorem Engine.tableState_tend (h : e.state = .run) : e.tableState .tend = .done := by
  simp [Engine.tableState, h]

/-- A pending error means that a pending flag is set (41_peq.md R125). -/
theorem Engine.not_clear_of_pendingError {code : ErrCode} (h : e.pendingError = some code) :
    ¬ (e.pendNa = false ∧ e.pendTl = false) := by
  rintro ⟨hna, htl⟩
  simp [Engine.pendingError, hna, htl] at h

/-- PEND leaves the state its cell names for the pending flags and POLICY. -/
theorem Engine.endBuild_state (w : Word16) (h : e.state = .build) : (e.endBuild w).state = e.tableState .pend := by
  rw [Engine.tableState_pend h]
  obtain ⟨hna, htl, hr⟩ | ⟨code, herr, hpolicy, hr⟩ | ⟨code, herr, hpolicy, hr⟩ := e.endBuild_cases w
  · rw [hr, if_pos ⟨hna, htl⟩]
  · rw [hr, if_neg (Engine.not_clear_of_pendingError herr), hpolicy]; rfl
  · rw [hr, if_neg (Engine.not_clear_of_pendingError herr), hpolicy]; rfl

/-- COUNT is at its last value exactly when all its bits are set (10_state.md R25). -/
theorem count_eq_allOnes_iff {n : Word64} : n = BitVec.allOnes 64 ↔ n.toNat = 2 ^ 64 - 1 := by
  rw [← BitVec.toNat_inj, BitVec.toNat_allOnes]

/-- TSTEP leaves the state its cell names for COUNT. -/
theorem Engine.consume_state (w : Word16) (b : Byte) (h : e.state = .run) :
    (e.consume w b).state = e.tableState (.tstep b) := by
  rw [Engine.tableState_tstep h]
  by_cases hcount : e.count = BitVec.allOnes 64
  · rw [Engine.consume_overflow w b hcount, if_pos (count_eq_allOnes_iff.mp hcount), Engine.raiseFault_state]
  · rw [Engine.consume_below w b hcount, if_neg (mt count_eq_allOnes_iff.mpr hcount), h]

/-- PPUSH never leaves the state it is accepted in. -/
theorem Engine.pushByte_state {b : Byte} (h : e.pushByte b = .ok e') : e'.state = e.state := by
  by_cases hl : e.len.toNat < v.width
  · rw [Engine.pushByte_below b hl] at h; cases h; rfl
  · rw [Engine.pushByte_full b (Nat.not_lt.mp hl)] at h; cases h; rfl

/-- TEND ends in DONE whenever it completes. -/
theorem Engine.extract_state (h : e.extract = .ok e') : e'.state = .done := by
  cases hm : uptoW v e.len.toNat with
  | ok mask => rw [Engine.extract_ok hm] at h; cases h; rfl
  | error r => unfold Engine.extract at h; rw [hm] at h; cases h

/-- An accepted command leaves the state of its cell. -/
theorem effect_state (ha : acceptedIn i e.state = true) (h : effect v i e = .ok e') : e'.state = e.tableState i := by
  cases i with
  | nop => cases h; exact Engine.tableState_nop.symm
  | rst => cases h; exact Engine.tableState_rst.symm
  | pbegin policy ascii => cases h; exact (Engine.tableState_pbegin (bne_iff_ne.mp ha)).symm
  | ppush b =>
    have hs : e.state = .build := beq_iff_eq.mp ha
    rw [Engine.pushByte_state h, hs, Engine.tableState_ppush hs]
  | pend => cases h; exact Engine.endBuild_state _ (beq_iff_eq.mp ha)
  | tbegin => cases h; exact (Engine.tableState_tbegin (acceptedIn_tbegin.mp ha)).symm
  | tstep b => cases h; exact Engine.consume_state _ b (beq_iff_eq.mp ha)
  | tend => rw [Engine.extract_state h, Engine.tableState_tend (beq_iff_eq.mp ha)]

/-- Every command, accepted or not, leaves the state of its cell. -/
theorem gated_effect_state (h : gated i (effect v i) e = .ok e') : e'.state = e.tableState i := by
  obtain ⟨ha, hr⟩ | ⟨ha, hf, hr⟩ | ⟨ha, -, hr⟩ := gated_cases h
  · exact effect_state ha hr.symm
  · cases hr; rw [hf, Engine.tableState_of_refused ha]
  · cases hr; rw [Engine.raiseFault_state, Engine.tableState_of_refused ha]

end Table

/-- Settles O26: a command completes while LEN is in its range, and its engine then stands in the state of its cell. -/
theorem transitionTable : Obligations.TransitionTable := by
  unfold Obligations.TransitionTable
  refine ⟨fun i s hlen => ?_, fun s w rest hh hw hf => ?_⟩
  · obtain ⟨e, he⟩ := gated_ok (effect_ok i hlen)
    exact ⟨e, exec_next.mpr ⟨e, he, rfl⟩, gated_effect_state he⟩
  · exact ⟨_, step_of_write_ok hh (engineIssue_illegal hf hw), rfl⟩

end Sys2Proof.Machine

/-! SUPPORT. The wide primitives against the whole register (42_wide_primitives.md R144 to R146), lane by lane, the word operations of R108 said
once for both variants, and the statements of the word family settled from them. -/

namespace Sys2Proof.Machine

/-! The cross-lane shift (R144). -/

section Shift

variable {w n : Nat}

/-- The lowest lane of a shifted register takes nothing from below. -/
theorem lane_shiftLeft_zero (a : BitVec w) (hw : 64 ≤ w) : lane (a <<< n) 0 = lane a 0 <<< n := by
  apply BitVec.eq_of_getLsbD_eq
  intro i hi
  have hiw : i < w := by omega
  have hlow : i - n < 64 := by omega
  rw [getLsbD_lane, BitVec.getLsbD_shiftLeft, BitVec.getLsbD_shiftLeft, getLsbD_lane]
  simp [hi, hiw, hlow]

/-- The two parts of a shifted lane have no bit in common. -/
theorem shiftLeft_and_ushiftRight_eq_zero (x y : Word64) : (x <<< n) &&& (y >>> (64 - n)) = 0#64 := by
  apply BitVec.eq_of_getLsbD_eq
  intro i hi
  rw [BitVec.getLsbD_and, BitVec.getLsbD_shiftLeft, BitVec.getLsbD_ushiftRight, BitVec.getLsbD_zero]
  by_cases hin : i < n
  · simp [hin]
  · rw [BitVec.getLsbD_of_ge y _ (by omega), Bool.and_false]

/-- Every higher lane takes the top `n` bits of the lane below it. -/
theorem lane_shiftLeft_succ (a : BitVec w) {j : Nat} (hn : n ≤ 64) (hj : 64 * (j + 2) ≤ w) :
    lane (a <<< n) (j + 1) = lane a (j + 1) <<< n + lane a j >>> (64 - n) := by
  rw [BitVec.add_eq_or_of_and_eq_zero _ _ (shiftLeft_and_ushiftRight_eq_zero _ _)]
  apply BitVec.eq_of_getLsbD_eq
  intro i hi
  have hiw : 64 * (j + 1) + i < w := by omega
  have habove : ¬ 64 * (j + 1) + i < n := by omega
  rw [BitVec.getLsbD_or, BitVec.getLsbD_shiftLeft, BitVec.getLsbD_ushiftRight]
  simp only [getLsbD_lane, BitVec.getLsbD_shiftLeft]
  by_cases hin : i < n
  · have hplace : 64 * (j + 1) + i - n = 64 * j + (64 - n + i) := by omega
    have hbelow : 64 - n + i < 64 := by omega
    simp [hi, hiw, habove, hin, hplace, hbelow]
  · have hplace : 64 * (j + 1) + i - n = 64 * (j + 1) + (i - n) := by omega
    have hbelow : ¬ 64 - n + i < 64 := by omega
    have hown : i - n < 64 := by omega
    simp [hi, hiw, habove, hin, hplace, hbelow, hown]

/-- What a lane takes from the lane below is its top `n` bits, none for `n = 0`. -/
theorem fromBelow_eq (x : Word64) (n : Nat) : (if n = 0 then (0 : Word64) else x >>> (64 - n)) = x >>> (64 - n) := by
  by_cases h : n = 0
  · rw [if_pos h, h]
    exact (BitVec.ushiftRight_eq_zero (Nat.le_refl 64)).symm
  · exact if_neg h

/-- The lanes of the cross-lane shift are those of the whole shift. -/
theorem shlLanes_eq_lanesOf (a : BitVec 512) (hn : n ≤ 64) : shlLanes a n = lanesOf (a <<< n) := by
  unfold shlLanes
  simp only [fromBelow_eq]
  apply List.ext_getElem?
  intro j
  cases j with
  | zero => simp [lanesOf, lane_shiftLeft_zero]
  | succ j =>
    by_cases hj : j + 1 < 8
    · rw [List.getElem?_zipWith, lanesOf_getElem _ _ hj, List.getElem?_map, lanesOf_getElem _ _ hj,
        List.getElem?_cons_succ, List.getElem?_map, lanesOf_getElem _ _ (by omega),
        lane_shiftLeft_succ a hn (by omega)]
      rfl
    · rw [List.getElem?_eq_none (by simp; omega), List.getElem?_eq_none (by simp; omega)]

/-- The cross-lane shift of a register is the shift of the register. -/
theorem ofLanes_shlLanes (a : BitVec 512) (hn : n ≤ 64) : ofLanes (shlLanes a n) = a <<< n := by
  rw [shlLanes_eq_lanesOf a hn, ofLanes_lanesOf]

end Shift

/-! The masks (40_word.md R106, R145). -/

/-- The mask of the low `i` bits has exactly the bits below `i`. -/
theorem getLsbD_lowMask (w i k : Nat) : (BitVec.ofNat w (2 ^ i - 1)).getLsbD k = (decide (k < w) && decide (k < i)) := by
  rw [BitVec.getLsbD_ofNat, Nat.testBit_two_pow_sub_one]

theorem toNat_lowMask {w i : Nat} (h : i ≤ w) : (BitVec.ofNat w (2 ^ i - 1)).toNat = 2 ^ i - 1 := by
  have hpow : 2 ^ i ≤ 2 ^ w := Nat.pow_le_pow_right (by decide) h
  have hpos : 0 < 2 ^ i := Nat.two_pow_pos i
  rw [BitVec.toNat_ofNat, Nat.mod_eq_of_lt (by omega)]

/-- A lane of `UPTO512(i)`: all ones below bit `i`, a partial mask around it, zero above. -/
theorem getLsbD_uptoLane (i j : Nat) {k : Nat} (hk : k < 64) : (uptoLane i j).getLsbD k = decide (64 * j + k < i) := by
  unfold uptoLane
  split
  · have : 64 * j + k < i := by omega
    rw [BitVec.getLsbD_allOnes, decide_eq_true hk, decide_eq_true this]
  · split
    · rw [getLsbD_lowMask, decide_eq_true hk, Bool.true_and, decide_eq_decide]
      omega
    · have : ¬ 64 * j + k < i := by omega
      simp [this]

theorem lane_lowMask {i j : Nat} (hj : j < 8) : lane (BitVec.ofNat 512 (2 ^ i - 1)) j = uptoLane i j := by
  apply BitVec.eq_of_getLsbD_eq
  intro k hk
  have hin : 64 * j + k < 512 := by omega
  rw [getLsbD_lane, getLsbD_lowMask, getLsbD_uptoLane i j hk]
  simp [hk, hin]

theorem upto512_eq {i : Nat} (h : i ≤ 512) : upto512 i = .ok (BitVec.ofNat 512 (2 ^ i - 1)) := by
  have hlanes : (List.range 8).map (uptoLane i) = lanesOf (BitVec.ofNat 512 (2 ^ i - 1)) :=
    List.map_congr_left fun j hj => (lane_lowMask (List.mem_range.mp hj)).symm
  rw [upto512, if_pos h, hlanes, ofLanes_lanesOf]

/-! The counts (40_word.md R107, R146). -/

theorem countBits_eq_countP {w : Nat} (a : BitVec w) (n : Nat) :
    countBits a n = (List.range n).countP fun i => a.getLsbD i := by
  induction n with
  | zero => rfl
  | succ n ih =>
    rw [countBits_succ, ih, List.range_succ, List.countP_append, List.countP_singleton]
    cases a.getLsbD n <;> rfl

/-- A lane's count is the register's count over the lane's place. -/
theorem popcount64_lane {w : Nat} (a : BitVec w) (j : Nat) : popcount64 (lane a j) = countBits (a >>> (64 * j)) 64 := by
  apply countBits_congr
  intro i hi
  rw [getLsbD_lane, decide_eq_true hi, Bool.true_and, BitVec.getLsbD_ushiftRight]

/-- The counts of the lowest `n` lanes add up to the count of the bits they hold. -/
theorem sum_popcount64_lane {w : Nat} (a : BitVec w) (n : Nat) :
    ((List.range n).map fun j => popcount64 (lane a j)).sum = countBits a (64 * n) := by
  induction n with
  | zero => rfl
  | succ n ih =>
    rw [List.range_succ, List.map_append, List.sum_append, ih, List.map_singleton, List.sum_singleton, popcount64_lane,
      Nat.mul_succ, countBits_add]

theorem popcount512_eq_countBits (a : BitVec 512) : popcount512 a = countBits a 512 := by
  rw [popcount512, lanesOf, List.map_map]
  exact sum_popcount64_lane a 8

/-! The operations bound to the variant (40_word.md R108). -/

theorem shl1W_eq (v : Variant) (a : BitVec v.width) : shl1W v a = a <<< 1 := by
  cases v with
  | scalar => rfl
  | wide => exact ofLanes_shlLanes a (by decide)

theorem uptoW_eq (v : Variant) {i : Nat} (h : i ≤ v.width) : uptoW v i = .ok (BitVec.ofNat v.width (2 ^ i - 1)) := by
  cases v with
  | scalar => exact if_pos h
  | wide => exact upto512_eq h

theorem popcountW_eq_countBits (v : Variant) (a : BitVec v.width) : popcountW v a = countBits a v.width := by
  cases v with
  | scalar => rfl
  | wide => exact popcount512_eq_countBits a

/-! The obligations of the word family. -/

/-- Settles O36, by the one meaning each operation has in both variants. -/
theorem variantBindingComputesTheSameFunctions : Obligations.VariantBindingComputesTheSameFunctions := by
  unfold Obligations.VariantBindingComputesTheSameFunctions
  intro v
  refine ⟨?add, ?shl, ?upto, fun i => uptoW_error v, ?popcount⟩
  case add =>
    intro a b
    rw [addW_eq, BitVec.toNat_add]
  case shl =>
    intro a
    rw [shl1W_eq, BitVec.toNat_shiftLeft, Nat.shiftLeft_eq, Nat.pow_one]
  case upto =>
    intro i hi
    exact ⟨_, uptoW_eq v hi, toNat_lowMask hi⟩
  case popcount =>
    intro a
    rw [popcountW_eq_countBits, countBits_eq_countP]

/-- Settles O35: the bits of a shifted one. -/
theorem bitAtSetsExactlyOneBit : Obligations.BitAtSetsExactlyOneBit := by
  unfold Obligations.BitAtSetsExactlyOneBit
  intro v i
  exact ⟨fun h => ⟨_, bitAt_ok h, fun j => getLsbD_one_shift v.width i j h⟩, bitAt_error⟩

end Sys2Proof.Machine

/-! SUPPORT. A command's outcome on the machine, accepted or not, the ends of PPUSH and PEND said flag by flag (41_peq.md R122 to R125), and the
statements of the Peq family settled from them. -/

namespace Sys2Proof.Machine

/-! The outcome of a command on the machine (30_encoding.md R86). -/

section CommandOutcome

variable {s : State} {i : Instr} {e : Engine s.variant}

/-- The engine of a command's next state is the one its gated effect answers. -/
theorem exec_next_engine : exec i s = .next { s with engine := e } ↔ gated i (effect s.variant i) s.engine = .ok e := by
  rw [exec_next]
  constructor
  · rintro ⟨e', he, heq⟩
    cases heq
    exact he
  · exact fun he => ⟨e, he, rfl⟩

theorem exec_accepted (ha : acceptedIn i s.engine.state = true) (he : effect s.variant i s.engine = .ok e) :
    exec i s = .next { s with engine := e } :=
  exec_next_engine.mpr ((gated_accepted ha).trans he)

theorem exec_sequence (ha : acceptedIn i s.engine.state = false) (hf : s.engine.state ≠ .fault) :
    exec i s = .next { s with engine := s.engine.raiseFault .sequence (encode i) } :=
  exec_next_engine.mpr (gated_sequence ha hf)

end CommandOutcome

section Building

variable {v : Variant} {e e' : Engine v}

/-! PPUSH (41_peq.md R124). -/

/-- Setting bit `n` of entry `b` leaves every other bit of the table. -/
theorem Engine.getLsbD_peqRead_setBit (b c : Byte) {n : Nat} (i : Nat) (hn : n < v.width) :
    ((e.peqWrite b (e.peqRead b ||| 1#v.width <<< n)).peqRead c).getLsbD i =
      ((e.peqRead c).getLsbD i || (decide (c = b) && decide (i = n))) := by
  by_cases hc : c = b
  · subst hc
    rw [Engine.peqRead_peqWrite_self, BitVec.getLsbD_or, getLsbD_one_shift v.width n i hn, decide_eq_true rfl, Bool.true_and]
  · rw [Engine.peqRead_peqWrite_of_ne e hc, decide_eq_false hc, Bool.false_and, Bool.or_false]

/-- PPUSH's word: the opcode over the byte (30_encoding.md R84). -/
theorem encode_ppush (b : Byte) : encode (.ppush b) = 0x3000 ||| b.setWidth 16 := by
  show 0x3#4 ++ 0#4 ++ b = 0x3000 ||| b.setWidth 16
  rw [BitVec.append_def, BitVec.setWidth'_eq]
  rfl

/-! PEND (41_peq.md R125). -/

theorem Engine.endBuild_of_clear (w : Word16) (hna : e.pendNa = false) (htl : e.pendTl = false) :
    e.endBuild w = { e with state := .ready } := by
  simp [Engine.endBuild, Engine.pendingError, hna, htl]

/-- The code of the pending flags, NON_ASCII before PATTERN_TOO_LONG. -/
theorem Engine.pendingError_of_flags {code : ErrCode}
    (h : e.pendNa = true ∧ code = .nonAscii ∨ e.pendNa = false ∧ e.pendTl = true ∧ code = .patternTooLong) :
    e.pendingError = some code := by
  obtain ⟨hna, rfl⟩ | ⟨hna, htl, rfl⟩ := h
  · simp [Engine.pendingError, hna]
  · simp [Engine.pendingError, hna, htl]

theorem Engine.endBuild_trusted (w : Word16) {code : ErrCode} (h : e.pendingError = some code) (hp : e.policy = false) :
    e.endBuild w = e.raiseFault code w := by
  simp [Engine.endBuild, h, hp]

theorem Engine.endBuild_recoverable (w : Word16) {code : ErrCode} (h : e.pendingError = some code) (hp : e.policy = true) :
    e.endBuild w = e.raiseError code := by
  simp [Engine.endBuild, h, hp]

/-! The frozen table (41_peq.md R122). -/

/-- Of the commands accepted in READY, RUN and DONE, only RST and PBEGIN touch the table: PPUSH and PEND are accepted in BUILD alone. -/
theorem effect_keeps_frozen_table {i : Instr} (hq : e.state = .ready ∨ e.state = .run ∨ e.state = .done)
    (ha : acceptedIn i e.state = true) (h : effect v i e = .ok e') (hrst : i ≠ .rst)
    (hpbegin : ∀ policy ascii, i ≠ .pbegin policy ascii) : e'.peq = e.peq ∧ e'.len = e.len := by
  have hbuild : e.state ≠ .build := by
    obtain hq | hq | hq := hq <;> simp [hq]
  obtain ⟨-, rfl⟩ | ⟨hi, -⟩ | ⟨policy, ascii, hi, -⟩ | ⟨b, rfl, -⟩ | ⟨rfl, -⟩ | ⟨-, rfl⟩ | ⟨b, -, ⟨-, rfl⟩ | ⟨-, rfl⟩⟩ |
    ⟨-, mask, -, rfl⟩ := effect_cases h
  · exact ⟨rfl, rfl⟩ -- NOP
  · exact absurd hi hrst
  · exact absurd hi (hpbegin policy ascii)
  · exact absurd (beq_iff_eq.mp ha) hbuild -- PPUSH
  · exact absurd (beq_iff_eq.mp ha) hbuild -- PEND
  · exact ⟨rfl, rfl⟩ -- TBEGIN
  · exact ⟨rfl, rfl⟩ -- TSTEP at the last count
  · exact ⟨rfl, rfl⟩ -- TSTEP below it
  · exact ⟨rfl, rfl⟩ -- TEND

end Building

/-! The obligations of the Peq family. -/

/-- Settles O16: PPUSH's effect below W and at W, and the SEQUENCE of a command not accepted. -/
theorem ppushAppendsOneByte : Obligations.PpushAppendsOneByte := by
  unfold Obligations.PpushAppendsOneByte
  refine ⟨?below, ?full, ?sequence, encode_ppush⟩
  case below =>
    intro s b hs hlen
    exact ⟨_, exec_accepted (beq_iff_eq.mpr hs) (Engine.pushByte_below b hlen),
      fun c i => Engine.getLsbD_peqRead_setBit b c i hlen, len_succ_toNat hlen, rfl⟩
  case full =>
    intro s b hs hlen
    exact exec_accepted (beq_iff_eq.mpr hs) (Engine.pushByte_full b hlen)
  case sequence =>
    intro s b hs hf
    exact exec_sequence (beq_eq_false_iff_ne.mpr hs) hf

/-- Settles O17: the three ends of a construction, and the SEQUENCE of a command not accepted. -/
theorem pendFreezesOrReports : Obligations.PendFreezesOrReports := by
  unfold Obligations.PendFreezesOrReports
  refine ⟨?frozen, ?error, ?sequence, rfl⟩
  case frozen =>
    intro s hs hna htl
    exact exec_accepted (beq_iff_eq.mpr hs) (congrArg Except.ok (Engine.endBuild_of_clear _ hna htl))
  case error =>
    intro s code hs hflags
    have herr : s.engine.pendingError = some code := Engine.pendingError_of_flags hflags
    refine ⟨fun hp => ?trusted, fun hp => ⟨s.engine.raiseError code, ?recoverable, ?table, rfl⟩⟩
    case trusted =>
      exact exec_accepted (beq_iff_eq.mpr hs) (congrArg Except.ok (Engine.endBuild_trusted _ herr hp))
    case recoverable =>
      exact exec_accepted (beq_iff_eq.mpr hs) (congrArg Except.ok (Engine.endBuild_recoverable _ herr hp))
    case table => exact s.engine.peqRead_raiseError code
  case sequence =>
    intro s hs hf
    exact exec_sequence (beq_eq_false_iff_ne.mpr hs) hf

/-- Settles O20: a command that is not accepted leaves the table, an accepted one by its effect; RST and PBEGIN end in the state of their
cell. -/
theorem frozenTableIsImmutable : Obligations.FrozenTableIsImmutable := by
  unfold Obligations.FrozenTableIsImmutable
  intro i s e hq hexec
  have hgated : gated i (effect s.variant i) s.engine = .ok e := exec_next_engine.mp hexec
  refine ⟨fun hrst hpbegin => ?table, fun hi => ?leave⟩
  case table =>
    obtain ⟨ha, hr⟩ | ⟨-, -, hr⟩ | ⟨-, -, hr⟩ := gated_cases hgated
    · exact effect_keeps_frozen_table hq ha hr.symm hrst hpbegin
    · cases hr; exact ⟨rfl, rfl⟩
    · cases hr; exact ⟨rfl, rfl⟩
  case leave =>
    have hf : s.engine.state ≠ .fault := by
      obtain hq | hq | hq := hq <;> simp [hq]
    have hstate : e.state = s.engine.tableState i := gated_effect_state hgated
    obtain rfl | ⟨policy, ascii, rfl⟩ := hi
    · rw [hstate, Engine.tableState_rst]; decide
    · rw [hstate, Engine.tableState_pbegin hf]; decide

/-- Settles O15: the engine answered is `startBuild`'s. -/
theorem pbeginStartsAConstruction : Obligations.PbeginStartsAConstruction := by
  unfold Obligations.PbeginStartsAConstruction
  refine ⟨fun s policy ascii hf => ?effect, by decide⟩
  exact ⟨s.engine.startBuild policy ascii, exec_accepted (bne_iff_ne.mpr hf) rfl,
    s.engine.peqRead_startBuild policy ascii, rfl⟩

end Sys2Proof.Machine

/-! SUPPORT. The carry rounds of the wide addition (42_wide_primitives.md R140 to R143): what one lane-wise addition keeps, the invariant of the
lane procedure and its end, and the statements of the wide family settled from it and from the lane lemmas of R144 to R146. -/

namespace Sys2Proof.Machine

/-! Registers as lanes: the low lane first, in the ring of 512-bit values (00_scope.md R6). -/

section Lanes

@[simp] theorem ofLanes_nil : ofLanes [] = 0 := rfl

/-- A register is its lowest lane and, one lane up, the register of the lanes above it. -/
theorem ofLanes_cons (x : Word64) (xs : List Word64) : ofLanes (x :: xs) = x.setWidth 512 + ofLanes xs <<< 64 := by
  have hdisjoint : (ofLanes xs <<< 64) &&& x.setWidth 512 = 0#512 := by
    apply BitVec.eq_of_getLsbD_eq
    intro i hi
    rw [BitVec.getLsbD_and, BitVec.getLsbD_shiftLeft, BitVec.getLsbD_setWidth, BitVec.getLsbD_zero]
    by_cases hlow : i < 64
    · simp [hlow]
    · rw [BitVec.getLsbD_of_ge x i (by omega), Bool.and_false, Bool.and_false]
  rw [BitVec.add_comm, BitVec.add_eq_or_of_and_eq_zero _ _ hdisjoint]
  rfl

theorem ofLanes_replicate_zero (n : Nat) : ofLanes (List.replicate n 0) = 0#512 := by
  induction n with
  | zero => rfl
  | succ n ih => rw [List.replicate_succ, ofLanes_cons, ih]; simp

/-- Moving every lane up by one loses the lane that was the eighth. -/
theorem ofLanes_shiftLeft_lane (xs : List Word64) : ofLanes xs <<< 64 = ofLanes (0 :: xs.take 7) := by
  apply BitVec.eq_of_getLsbD_eq
  intro i hi
  rw [BitVec.getLsbD_shiftLeft, getLsbD_ofLanes, getLsbD_ofLanes]
  by_cases hlow : i < 64
  · simp [hlow, Nat.div_eq_of_lt hlow]
  · obtain ⟨k, rfl⟩ : ∃ k, i = k + 64 := ⟨i - 64, by omega⟩
    have hk : k < 512 := by omega
    have hlane : k / 64 < 7 := by omega
    rw [Nat.add_div_right k (by decide), Nat.add_mod_right, Nat.add_sub_cancel]
    simp [List.getD_eq_getElem?_getD, List.getElem?_take_of_lt hlane, hk, hi]

/-- The lanes of a register put together from eight lanes are those lanes. -/
theorem lanesOf_ofLanes {xs : List Word64} (h : xs.length = 8) : lanesOf (ofLanes xs) = xs := by
  apply List.ext_getElem (by rw [lanesOf_length, h])
  intro j hj hj'
  have hget : xs.getD j 0 = xs[j] := List.getD_eq_getElem _ _ hj'
  simp only [lanesOf, List.getElem_map, List.getElem_range]
  apply BitVec.eq_of_getLsbD_eq
  intro i hi
  have hin : 64 * j + i < 512 := by omega
  have hlane : (64 * j + i) / 64 = j := by omega
  have hbit : (64 * j + i) % 64 = i := by omega
  rw [getLsbD_lane, getLsbD_ofLanes, hlane, hbit, hget, decide_eq_true hi, decide_eq_true hin, Bool.true_and, Bool.true_and]

end Lanes

/-! The lane procedure of the addition (R141, R142). -/

/-- A carry as the word that is added to a lane. -/
def carryWord (c : Bool) : Word64 := (BitVec.ofBool c).setWidth 64

/-- What a round adds to the lanes: every carry enters the lane above it, and the carry out of lane 7 is lost. -/
def carryLanes (cs : List Bool) : List Word64 := 0 :: (cs.map carryWord).take 7

/-- The register an unfinished addition stands for: its sums and the carries still to be added. -/
def CarryState.total (c : CarryState) : BitVec 512 := ofLanes c.sums + ofLanes (carryLanes c.carries)

/-- A word sum and the carry out of it make up the sum of the operands: the sum wrapped exactly when it is below an operand (R141). -/
theorem toNat_add_ult (x y : Word64) : (x + y).toNat + 2 ^ 64 * (BitVec.ult (x + y) x).toNat = x.toNat + y.toNat := by
  have hx : x.toNat < 2 ^ 64 := x.isLt
  have hy : y.toNat < 2 ^ 64 := y.isLt
  rw [BitVec.ult_eq_decide, BitVec.toNat_add]
  by_cases hwrap : x.toNat + y.toNat < 2 ^ 64
  · rw [Nat.mod_eq_of_lt hwrap, decide_eq_false (by omega)]; rfl
  · rw [decide_eq_true (by omega), Bool.toNat_true]; omega

theorem carryWord_toNat (c : Bool) : (carryWord c).toNat = c.toNat := by cases c <;> rfl

/-- The same in the register: the carry counts one lane up. -/
theorem setWidth_add_setWidth (x y : Word64) :
    x.setWidth 512 + y.setWidth 512 = (x + y).setWidth 512 + (carryWord (BitVec.ult (x + y) x)).setWidth 512 <<< 64 := by
  have hshift : (carryWord (BitVec.ult (x + y) x)).setWidth 512 <<< 64 =
      BitVec.ofNat 512 (2 ^ 64 * (BitVec.ult (x + y) x).toNat) := by
    rw [← carryWord_toNat, ← BitVec.toNat_inj, BitVec.toNat_shiftLeft, BitVec.toNat_setWidth, BitVec.toNat_ofNat, Nat.shiftLeft_eq,
      Nat.mod_mul_mod, Nat.mul_comm]
  rw [hshift, ← BitVec.ofNat_toNat, ← BitVec.ofNat_toNat, ← BitVec.ofNat_toNat, ← BitVec.ofNat_add, ← BitVec.ofNat_add, toNat_add_ult]

/-- Lane-wise addition keeps the sum of two registers, once the wraps are counted as carries into the lanes above. -/
theorem ofLanes_add (xs ys : List Word64) (h : xs.length = ys.length) :
    ofLanes xs + ofLanes ys = ofLanes (List.zipWith (· + ·) xs ys) +
      ofLanes (carryLanes (List.zipWith BitVec.ult (List.zipWith (· + ·) xs ys) xs)) := by
  rw [carryLanes, ← ofLanes_shiftLeft_lane]
  induction xs generalizing ys with
  | nil =>
    obtain rfl : ys = [] := List.eq_nil_of_length_eq_zero h.symm
    simp
  | cons x xs ih =>
    obtain ⟨y, ys, rfl⟩ := List.exists_cons_of_length_eq_add_one h.symm
    have hrest := ih ys (by simpa using h)
    simp only [List.zipWith_cons_cons, List.map_cons, ofLanes_cons, BitVec.shiftLeft_add_distrib]
    rw [add_add_add_comm, setWidth_add_setWidth, ← BitVec.shiftLeft_add_distrib, hrest, BitVec.shiftLeft_add_distrib, add_add_add_comm]

/-! Round 0 and the carry rounds (R141, R142). -/

/-- A round adds to every lane its carry-in; the carry out of lane 7 falls off the end of the lanes. -/
theorem carryRound_sums {c : CarryState} (h : c.sums.length = 8) :
    (carryRound c).sums = List.zipWith (· + ·) c.sums (carryLanes c.carries) := by
  have hround : (carryRound c).sums = List.zipWith (· + ·) c.sums ((false :: c.carries).map carryWord) :=
    List.zipWith_map_right.symm
  have hlength : (carryRound c).sums.length ≤ 8 := by rw [hround, List.length_zipWith]; omega
  calc (carryRound c).sums
      = (List.zipWith (· + ·) c.sums ((false :: c.carries).map carryWord)).take 8 := by
        rw [← hround, List.take_of_length_le hlength]
    _ = List.zipWith (· + ·) c.sums (carryLanes c.carries) := by
        rw [List.take_zipWith, List.take_of_length_le h.le]; rfl

theorem carryRound_carries (c : CarryState) : (carryRound c).carries = List.zipWith BitVec.ult (carryRound c).sums c.sums := rfl

theorem carryRound_rounds (c : CarryState) : (carryRound c).rounds = c.rounds + 1 := rfl

/-- In a round a lane wraps only on a carry from the lane below it (R143). -/
theorem carry_below_of_carryRound {c : CarryState} {j : Nat} (h : (carryRound c).carries[j]? = some true) :
    (false :: c.carries)[j]? = some true := by
  obtain ⟨new, old, hnew, hold, hwrap⟩ := List.getElem?_zipWith_eq_some.mp h
  obtain ⟨s, cin, hs, hcin, rfl⟩ := List.getElem?_zipWith_eq_some.mp hnew
  obtain rfl : s = old := Option.some.inj (hs.symm.trans hold)
  cases cin with
  | true => exact hcin
  | false => simp [BitVec.ult_eq_decide] at hwrap

theorem exists_carry_of_carryPending {c : CarryState} (h : carryPending c = true) : ∃ j < 7, c.carries[j]? = some true := by
  obtain ⟨x, hx, rfl⟩ := List.any_eq_true.mp h
  obtain ⟨j, hj, hcarry⟩ := List.mem_take_iff_getElem.mp hx
  exact ⟨j, by omega, List.getElem?_eq_some_iff.mpr ⟨by omega, hcarry⟩⟩

/-- With no carry pending nothing is left to add. -/
theorem carryLanes_of_not_pending {c : CarryState} (h : carryPending c = false) : ofLanes (carryLanes c.carries) = 0#512 := by
  have hzero : (c.carries.take 7).map carryWord = List.replicate (c.carries.take 7).length 0 := by
    apply List.eq_replicate_iff.mpr ⟨List.length_map _, fun w hw => ?_⟩
    obtain ⟨cin, hcin, rfl⟩ := List.mem_map.mp hw
    obtain rfl : cin = false := Bool.eq_false_iff.mpr (List.any_eq_false.mp h cin hcin)
    rfl
  rw [carryLanes, ← List.map_take, hzero, ← List.replicate_succ, ofLanes_replicate_zero]

/-- The invariant of the lane procedure for `x`, the sum it works towards: the sums and the pending carries stand for `x`, and after `r` rounds
the lowest `r` lanes no longer wrap. -/
structure CarryState.Yields (c : CarryState) (x : BitVec 512) : Prop where
  sums_length : c.sums.length = 8
  carries_length : c.carries.length = 8
  total : c.total = x
  settled : ∀ j < c.rounds, c.carries[j]? ≠ some true

theorem carryStart_yields (a b : BitVec 512) : (carryStart a b).Yields (a + b) where
  sums_length := rfl
  carries_length := rfl
  total := by
    have hsum := ofLanes_add (lanesOf a) (lanesOf b) ((lanesOf_length a).trans (lanesOf_length b).symm)
    rw [ofLanes_lanesOf, ofLanes_lanesOf] at hsum
    exact hsum.symm
  settled := fun j hj => absurd hj (Nat.not_lt_zero j)

section Rounds

variable {c : CarryState} {x : BitVec 512}

/-- A round moves every pending carry into the sums or one lane up. -/
theorem carryRound_yields (h : c.Yields x) : (carryRound c).Yields x where
  sums_length := by simp [carryRound_sums h.sums_length, carryLanes, h.sums_length, h.carries_length]
  carries_length := by simp [carryRound_carries, carryRound_sums h.sums_length, carryLanes, h.sums_length, h.carries_length]
  total := by
    have hlength : c.sums.length = (carryLanes c.carries).length := by simp [carryLanes, h.sums_length, h.carries_length]
    rw [CarryState.total, carryRound_carries, carryRound_sums h.sums_length, ← ofLanes_add _ _ hlength]
    exact h.total
  settled := by
    intro j hj hcarry
    have hbelow := carry_below_of_carryRound hcarry
    cases j with
    | zero => cases hbelow
    | succ j => exact h.settled j (Nat.lt_of_succ_lt_succ hj) hbelow

theorem carryBlind_yields (h : c.Yields x) (n : Nat) : (carryBlind n c).Yields x := by
  induction n generalizing c with
  | zero => exact h
  | succ n ih => exact ih (carryRound_yields h)

theorem carryLoop_of_pending (fuel : Nat) (h : carryPending c = true) :
    carryLoop (fuel + 1) c = carryLoop fuel (carryRound c) := if_pos h

theorem carryLoop_of_not_pending (fuel : Nat) (h : carryPending c = false) : carryLoop fuel c = c := by
  cases fuel with
  | zero => rfl
  | succ fuel => exact if_neg (Bool.eq_false_iff.mp h)

theorem carryLoop_yields (h : c.Yields x) (fuel : Nat) : (carryLoop fuel c).Yields x := by
  induction fuel generalizing c with
  | zero => exact h
  | succ fuel ih =>
    cases hp : carryPending c with
    | true => rw [carryLoop_of_pending fuel hp]; exact ih (carryRound_yields h)
    | false => rw [carryLoop_of_not_pending _ hp]; exact h

/-- A carry still pending sits in a lane from 0 to 6, and that lane has not settled (R143). -/
theorem rounds_lt_of_pending (h : c.Yields x) (hp : carryPending c = true) : c.rounds < 7 := by
  obtain ⟨j, hj, hcarry⟩ := exists_carry_of_carryPending hp
  by_contra hrounds
  exact h.settled j (by omega) hcarry

/-- The loop ends once its fuel and the rounds done make up 7. -/
theorem carryLoop_ends (h : c.Yields x) (fuel : Nat) (hfuel : 7 ≤ c.rounds + fuel) :
    carryPending (carryLoop fuel c) = false := by
  induction fuel generalizing c with
  | zero => exact Bool.eq_false_iff.mpr fun hp => absurd (rounds_lt_of_pending h hp) (Nat.not_lt.mpr hfuel)
  | succ fuel ih =>
    cases hp : carryPending c with
    | true =>
      rw [carryLoop_of_pending fuel hp]
      exact ih (carryRound_yields h) (by rw [carryRound_rounds]; omega)
    | false => rw [carryLoop_of_not_pending _ hp]; exact hp

/-- The loop does no round beyond the seventh, whatever its fuel. -/
theorem carryLoop_rounds_le (h : c.Yields x) (fuel : Nat) (hrounds : c.rounds ≤ 7) :
    (carryLoop fuel c).rounds ≤ 7 := by
  induction fuel generalizing c with
  | zero => exact hrounds
  | succ fuel ih =>
    cases hp : carryPending c with
    | true =>
      rw [carryLoop_of_pending fuel hp]
      exact ih (carryRound_yields h) (rounds_lt_of_pending h hp)
    | false => rw [carryLoop_of_not_pending _ hp]; exact hrounds

/-- With no carry pending the sums are the lanes of the sum. -/
theorem ofLanes_sums_of_not_pending (h : c.Yields x) (hp : carryPending c = false) : ofLanes c.sums = x := by
  rw [← h.total, CarryState.total, carryLanes_of_not_pending hp, BitVec.add_zero]

end Rounds

theorem carryAdd_yields (hint : Nat) (a b : BitVec 512) : (carryAdd hint a b).Yields (a + b) :=
  carryLoop_yields (carryBlind_yields (carryStart_yields a b) hint) 7

theorem carryPending_carryAdd (hint : Nat) (a b : BitVec 512) : carryPending (carryAdd hint a b) = false :=
  carryLoop_ends (carryBlind_yields (carryStart_yields a b) hint) 7 (Nat.le_add_left 7 _)

theorem ofLanes_carryAdd_sums (hint : Nat) (a b : BitVec 512) : ofLanes (carryAdd hint a b).sums = a + b :=
  ofLanes_sums_of_not_pending (carryAdd_yields hint a b) (carryPending_carryAdd hint a b)

/-! The obligations of the wide primitives. -/

/-- Settles O37: the invariant holds after round 0 and every round keeps it, and with no carry pending it says that the sums are the lanes of
a + b. -/
theorem carryRoundsAddAsOneBigInteger : Obligations.CarryRoundsAddAsOneBigInteger := by
  unfold Obligations.CarryRoundsAddAsOneBigInteger
  intro hint a b
  -- At a variable width, so that 2 ^ 512 stays unevaluated.
  have hadd {w : Nat} (x y : BitVec w) : (x + y).toNat = (x.toNat + y.toNat) % 2 ^ w := BitVec.toNat_add x y
  have hsum : ofLanes (carryAdd hint a b).sums = add512 a b := ofLanes_carryAdd_sums hint a b
  refine ⟨carryPending_carryAdd hint a b, ?lanes, hsum, hadd a b⟩
  case lanes => rw [← hsum, lanesOf_ofLanes (carryAdd_yields hint a b).sums_length]

/-- Settles O38: a round is done only while fewer than 7 are, and after 7 no carry is pending; the bound's input is run. -/
theorem carryRoundBoundIsSevenAndReached : Obligations.CarryRoundBoundIsSevenAndReached := by
  unfold Obligations.CarryRoundBoundIsSevenAndReached
  refine ⟨fun fuel a b => ?bound, fun a b => ?ends, ?reached, ofLanes_carryAdd_sums, ofLanes_carryAdd_sums Config.carryHint⟩
  case bound => exact carryLoop_rounds_le (carryStart_yields a b) fuel (Nat.zero_le 7)
  case ends => exact carryLoop_ends (carryStart_yields a b) 7 (Nat.le_add_left 7 _)
  case reached => decide +kernel

/-- Settles O39: the lane shift is the whole shift by `ofLanes_shlLanes`, and N = 1 is in its range. -/
theorem crossLaneShiftIsTheWholeShift : Obligations.CrossLaneShiftIsTheWholeShift := by
  unfold Obligations.CrossLaneShiftIsTheWholeShift
  refine ⟨fun a n hn => ?value, fun a n hn => ?fault, fun a => ?one⟩
  case value => rw [shl512, if_pos hn, ofLanes_shlLanes a hn]
  case fault => exact if_neg (Nat.not_le.mpr hn)
  case one => exact if_pos (by decide)

/-- Settles O40: the mask is the register 2^i − 1, whose bits and lanes are known. -/
theorem uptoMaskHasExactlyTheLowBits : Obligations.UptoMaskHasExactlyTheLowBits := by
  unfold Obligations.UptoMaskHasExactlyTheLowBits
  refine ⟨fun i hi => ⟨_, upto512_eq hi, toNat_lowMask hi, fun j hj => ?bits, fun j hj => lane_lowMask hj⟩, fun i hi => ?fault⟩
  case bits => rw [getLsbD_lowMask, decide_eq_true hj, Bool.true_and]
  case fault => exact if_neg (Nat.not_le.mpr hi)

/-- Settles O41: the lanes' counts add up to the count over all 512 bits. -/
theorem popcountReduceCountsTheWholeRegister : Obligations.PopcountReduceCountsTheWholeRegister := by
  unfold Obligations.PopcountReduceCountsTheWholeRegister
  refine ⟨fun a => ⟨?count, ?bound⟩, ?zero, ?ones, ?two⟩
  case count => rw [popcount512_eq_countBits, countBits_eq_countP]
  case bound => rw [popcount512_eq_countBits]; exact countBits_le a 512
  case zero => decide +kernel
  case ones => decide +kernel
  case two => decide +kernel

end Sys2Proof.Machine

/-! SUPPORT. The recurrence bit by bit (43_recurrence.md R161, R170), the edit-distance matrix cell by cell (00_scope.md R10), and the step
from one of its columns to the next (R172). -/

namespace Sys2Proof.Machine

/-! The bits of one step (43_recurrence.md R161): each named value at bit i from the operands at bit i and hn and hp after their shifts,
which are hn and hp at bit i − 1. -/

section RecurrenceBits

variable {v : Variant} {eq vp vn : BitVec v.width} {i : Nat}

/-- hn after its shift, the summand of VP' (43_recurrence.md R161); hp after its shift is a field of the trace. -/
def RecurrenceTrace.hnShifted {w : Nat} (r : RecurrenceTrace w) : BitVec w := r.hn <<< 1

/-- The recurrence over the whole register's addition and shift (40_word.md R108). -/
theorem recurrence_eq :
    recurrence v eq vp vn =
      let sum := (eq &&& vp) + vp
      let d0 := (sum ^^^ vp) ||| eq
      let hp := vn ||| ~~~(vp ||| d0)
      let hn := vp &&& d0
      let xh := eq ||| vn
      let hpShifted := hp <<< 1 ||| 1#v.width
      { sum := sum, d0 := d0, hp := hp, hn := hn, xh := xh, hpShifted := hpShifted
        vp := hn <<< 1 ||| ~~~(xh ||| hpShifted), vn := hpShifted &&& xh } := by
  simp only [recurrence, addW_eq, shl1W_eq]

theorem getLsbD_recurrence_hn : (recurrence v eq vp vn).hn.getLsbD i = (vp.getLsbD i && (recurrence v eq vp vn).d0.getLsbD i) :=
  BitVec.getLsbD_and

theorem getLsbD_recurrence_hp (hi : i < v.width) : (recurrence v eq vp vn).hp.getLsbD i =
    (vn.getLsbD i || !(vp.getLsbD i || (recurrence v eq vp vn).d0.getLsbD i)) := by
  show (vn ||| ~~~(vp ||| (recurrence v eq vp vn).d0)).getLsbD i = _
  simp [hi]

theorem getLsbD_recurrence_hpShifted_zero : (recurrence v eq vp vn).hpShifted.getLsbD 0 = true := by
  have hw := width_pos v
  simp [recurrence_eq, hw]

theorem getLsbD_recurrence_hpShifted_succ (hi : i + 1 < v.width) :
    (recurrence v eq vp vn).hpShifted.getLsbD (i + 1) = (recurrence v eq vp vn).hp.getLsbD i := by
  have hshifted : (recurrence v eq vp vn).hpShifted = (recurrence v eq vp vn).hp <<< 1 ||| 1#v.width := by rw [recurrence_eq]
  rw [hshifted, BitVec.getLsbD_or, BitVec.getLsbD_shiftLeft, BitVec.getLsbD_one]
  simp [hi]

theorem RecurrenceTrace.getLsbD_hnShifted_zero {w : Nat} (r : RecurrenceTrace w) : r.hnShifted.getLsbD 0 = false := by
  simp [RecurrenceTrace.hnShifted]

theorem RecurrenceTrace.getLsbD_hnShifted_succ {w : Nat} (r : RecurrenceTrace w) (hi : i + 1 < w) :
    r.hnShifted.getLsbD (i + 1) = r.hn.getLsbD i := by
  rw [RecurrenceTrace.hnShifted, BitVec.getLsbD_shiftLeft]
  simp [hi]

/-- A bit of d0 is the bit of eq or the carry into it: where eq is set the sum's bit does not matter, elsewhere the sum differs from VP by
the carry. -/
theorem getLsbD_recurrence_d0_eq_carry (hi : i < v.width) : (recurrence v eq vp vn).d0.getLsbD i =
    (eq.getLsbD i || BitVec.carry i (eq &&& vp) vp false) := by
  simp only [recurrence_eq, BitVec.getLsbD_or, BitVec.getLsbD_xor, BitVec.getLsbD_add hi, BitVec.getLsbD_and]
  cases eq.getLsbD i <;> cases vp.getLsbD i <;> simp

/-- The carry of R161's one addition is hn after its shift: VP's bit passes a carry on exactly when d0's bit is set. -/
theorem carry_eq_hnShifted (hi : i < v.width) :
    BitVec.carry i (eq &&& vp) vp false = (recurrence v eq vp vn).hnShifted.getLsbD i := by
  cases i with
  | zero => rw [RecurrenceTrace.getLsbD_hnShifted_zero]; exact BitVec.carry_zero
  | succ i =>
    rw [RecurrenceTrace.getLsbD_hnShifted_succ _ hi, getLsbD_recurrence_hn, getLsbD_recurrence_d0_eq_carry (Nat.lt_of_succ_lt hi),
      BitVec.carry_succ, BitVec.getLsbD_and]
    cases eq.getLsbD i <;> cases vp.getLsbD i <;> simp [Bool.atLeastTwo]

theorem getLsbD_recurrence_d0 (hi : i < v.width) : (recurrence v eq vp vn).d0.getLsbD i =
    (eq.getLsbD i || (recurrence v eq vp vn).hnShifted.getLsbD i) := by
  rw [getLsbD_recurrence_d0_eq_carry hi, carry_eq_hnShifted hi]

theorem getLsbD_recurrence_vp (hi : i < v.width) : (recurrence v eq vp vn).vp.getLsbD i =
    ((recurrence v eq vp vn).hnShifted.getLsbD i ||
      !((eq.getLsbD i || vn.getLsbD i) || (recurrence v eq vp vn).hpShifted.getLsbD i)) := by
  have hvp : (recurrence v eq vp vn).vp =
      (recurrence v eq vp vn).hnShifted ||| ~~~((eq ||| vn) ||| (recurrence v eq vp vn).hpShifted) := by
    rw [recurrence_eq]; rfl
  rw [hvp]
  simp [hi]

theorem getLsbD_recurrence_vn : (recurrence v eq vp vn).vn.getLsbD i =
    ((recurrence v eq vp vn).hpShifted.getLsbD i && (eq.getLsbD i || vn.getLsbD i)) := by
  show ((recurrence v eq vp vn).hpShifted &&& (eq ||| vn)).getLsbD i = _
  rw [BitVec.getLsbD_and, BitVec.getLsbD_or]

end RecurrenceBits

/-! Information flows only upward (43_recurrence.md R170). -/

section Upward

variable {v v' : Variant} {k : Nat} {eq vp vn : BitVec v.width} {eq' vp' vn' : BitVec v'.width}

/-- Below `k` the shifted hn and hp of two steps agree when their operands do: bit i + 1 of either comes from bit i. -/
theorem shifted_agree (hk : k ≤ v.width) (hk' : k ≤ v'.width)
    (h : ∀ i < k, eq.getLsbD i = eq'.getLsbD i ∧ vp.getLsbD i = vp'.getLsbD i ∧ vn.getLsbD i = vn'.getLsbD i) :
    ∀ i < k, (recurrence v eq vp vn).hnShifted.getLsbD i = (recurrence v' eq' vp' vn').hnShifted.getLsbD i ∧
      (recurrence v eq vp vn).hpShifted.getLsbD i = (recurrence v' eq' vp' vn').hpShifted.getLsbD i := by
  intro i hi
  induction i with
  | zero => simp only [RecurrenceTrace.getLsbD_hnShifted_zero, getLsbD_recurrence_hpShifted_zero, and_self]
  | succ i ih =>
    have hlt : i < k := Nat.lt_of_succ_lt hi
    obtain ⟨heq, hvp, hvn⟩ := h i hlt
    obtain ⟨hhn, -⟩ := ih hlt
    have hd0 : (recurrence v eq vp vn).d0.getLsbD i = (recurrence v' eq' vp' vn').d0.getLsbD i := by
      rw [getLsbD_recurrence_d0 (by omega), getLsbD_recurrence_d0 (by omega), heq, hhn]
    constructor
    · rw [RecurrenceTrace.getLsbD_hnShifted_succ _ (by omega), RecurrenceTrace.getLsbD_hnShifted_succ _ (by omega),
        getLsbD_recurrence_hn, getLsbD_recurrence_hn, hvp, hd0]
    · rw [getLsbD_recurrence_hpShifted_succ (by omega), getLsbD_recurrence_hpShifted_succ (by omega), getLsbD_recurrence_hp (by omega),
        getLsbD_recurrence_hp (by omega), hvp, hvn, hd0]

/-- Bits below `k` of VP' and VN' depend only on bits below `k` of the operands (43_recurrence.md R170). -/
theorem recurrence_agree (hk : k ≤ v.width) (hk' : k ≤ v'.width)
    (h : ∀ i < k, eq.getLsbD i = eq'.getLsbD i ∧ vp.getLsbD i = vp'.getLsbD i ∧ vn.getLsbD i = vn'.getLsbD i) :
    ∀ i < k, (recurrence v eq vp vn).vp.getLsbD i = (recurrence v' eq' vp' vn').vp.getLsbD i ∧
      (recurrence v eq vp vn).vn.getLsbD i = (recurrence v' eq' vp' vn').vn.getLsbD i := by
  intro i hi
  obtain ⟨heq, -, hvn⟩ := h i hi
  obtain ⟨hhn, hhp⟩ := shifted_agree hk hk' h i hi
  constructor
  · rw [getLsbD_recurrence_vp (by omega), getLsbD_recurrence_vp (by omega), hhn, hhp, heq, hvn]
  · rw [getLsbD_recurrence_vn, getLsbD_recurrence_vn, hhp, heq, hvn]

end Upward

/-! The edit-distance matrix (00_scope.md R10): how neighbouring cells differ. -/

section Matrix

variable (p t : List Byte)

@[simp] theorem editMatrix_zero_left (j : Nat) : editMatrix p t 0 j = j := rfl

@[simp] theorem editMatrix_zero_right (i : Nat) : editMatrix p t i 0 = i := by cases i <;> rfl

theorem editMatrix_succ_succ (i j : Nat) : editMatrix p t (i + 1) (j + 1) =
    min (min (editMatrix p t i (j + 1) + 1) (editMatrix p t (i + 1) j + 1))
      (editMatrix p t i j + if p[i]? = t[j]? then 0 else 1) := rfl

/-- A step down or to the right costs at most 1. -/
theorem editMatrix_succ_le (i j : Nat) :
    editMatrix p t (i + 1) j ≤ editMatrix p t i j + 1 ∧ editMatrix p t i (j + 1) ≤ editMatrix p t i j + 1 := by
  constructor
  · cases j with
    | zero => simp
    | succ j => rw [editMatrix_succ_succ]; omega
  · cases i with
    | zero => simp
    | succ i => rw [editMatrix_succ_succ]; omega

/-- A step down gains at most 1. -/
theorem editMatrix_le_succ_left (i j : Nat) : editMatrix p t i j ≤ editMatrix p t (i + 1) j + 1 := by
  induction j with
  | zero => rw [editMatrix_zero_right, editMatrix_zero_right]; omega
  | succ j ih =>
    have hright := (editMatrix_succ_le p t i j).2
    rw [editMatrix_succ_succ]
    omega

/-- A step to the right gains at most 1. -/
theorem editMatrix_le_succ_right (i j : Nat) : editMatrix p t i j ≤ editMatrix p t i (j + 1) + 1 := by
  induction i with
  | zero => rw [editMatrix_zero_left, editMatrix_zero_left]; omega
  | succ i ih =>
    have hdown := (editMatrix_succ_le p t i j).1
    rw [editMatrix_succ_succ]
    omega

/-- Cells side by side differ by at most 1. -/
theorem editMatrix_right_bounds (i j : Nat) :
    editMatrix p t i (j + 1) ≤ editMatrix p t i j + 1 ∧ editMatrix p t i j ≤ editMatrix p t i (j + 1) + 1 :=
  ⟨(editMatrix_succ_le p t i j).2, editMatrix_le_succ_right p t i j⟩

/-- Cells one above the other differ by at most 1. -/
theorem editMatrix_down_bounds (i j : Nat) :
    editMatrix p t (i + 1) j ≤ editMatrix p t i j + 1 ∧ editMatrix p t i j ≤ editMatrix p t (i + 1) j + 1 :=
  ⟨(editMatrix_succ_le p t i j).1, editMatrix_le_succ_left p t i j⟩

/-- A cell is at most the larger of its indices: along the diagonal the distance grows by at most 1. -/
theorem editMatrix_le_max (i j : Nat) : editMatrix p t i j ≤ max i j := by
  induction i generalizing j with
  | zero => simp
  | succ i ih =>
    cases j with
    | zero => simp
    | succ j =>
      have hdiagonal := ih j
      rw [editMatrix_succ_succ]
      split <;> omega

/-- A cell and its column index make up at least its row index: a step to the right gains at most 1. -/
theorem row_le_editMatrix_add (i j : Nat) : i ≤ j + editMatrix p t i j := by
  induction j with
  | zero => simp
  | succ j ih => have := editMatrix_le_succ_right p t i j; omega

/-- A cell and its row index make up at least its column index: a step down gains at most 1. -/
theorem column_le_editMatrix_add (i j : Nat) : j ≤ i + editMatrix p t i j := by
  induction i with
  | zero => simp
  | succ i ih => have := editMatrix_le_succ_left p t i j; omega

/-- A column depends only on the text before it. -/
theorem editMatrix_append (u : List Byte) (i : Nat) {j : Nat} (hj : j ≤ t.length) :
    editMatrix p (t ++ u) i j = editMatrix p t i j := by
  induction i generalizing j with
  | zero => rfl
  | succ i ih =>
    induction j with
    | zero => simp
    | succ j ihj =>
      have hbyte : (t ++ u)[j]? = t[j]? := List.getElem?_append_left hj
      rw [editMatrix_succ_succ, editMatrix_succ_succ, ih hj, ih (Nat.le_of_succ_le hj), ihj (Nat.le_of_succ_le hj), hbyte]

end Matrix

/-! One cell of the matrix: the difference along its lower side from those along its upper and left side and the match of its bytes. `a`
stands above `c`, `b` above `d`, and `a` left of `b`. The right side is the lower side of the transposed cell. -/

section Cell

variable {a b c d : Nat} {e : Prop} [Decidable e]

/-- The difference c → d is −1 exactly when a → c is +1 and either the bytes match or a → b is −1. -/
theorem cell_neg (hb : b ≤ a + 1 ∧ a ≤ b + 1) (hc : c ≤ a + 1 ∧ a ≤ c + 1)
    (hd : d = min (min (b + 1) (c + 1)) (a + if e then 0 else 1)) :
    (decide (c = a + 1) && (decide e || decide (b + 1 = a))) = decide (d + 1 = c) := by
  subst hd
  rw [Bool.eq_iff_iff]
  simp only [Bool.and_eq_true, Bool.or_eq_true, decide_eq_true_eq]
  by_cases he : e
  · simp only [he, if_true, true_or, and_true]; omega
  · simp only [he, if_false, false_or]; omega

/-- The difference c → d is +1 exactly when a → c is −1, or it is 0 and neither do the bytes match nor is a → b −1. -/
theorem cell_pos (hb : b ≤ a + 1 ∧ a ≤ b + 1) (hc : c ≤ a + 1 ∧ a ≤ c + 1)
    (hd : d = min (min (b + 1) (c + 1)) (a + if e then 0 else 1)) :
    (decide (c + 1 = a) || !(decide (c = a + 1) || (decide e || decide (b + 1 = a)))) = decide (d = c + 1) := by
  subst hd
  rw [Bool.eq_iff_iff]
  simp only [Bool.or_eq_true, Bool.not_eq_true', Bool.or_eq_false_iff, decide_eq_true_eq, decide_eq_false_iff_not]
  by_cases he : e
  · simp only [he, if_true, not_true, false_and, and_false, or_false]; omega
  · simp only [he, if_false, not_false_iff, true_and]; omega

end Cell

/-! Columns of the matrix (43_recurrence.md R172). -/

section Column

variable {v : Variant} {p t : List Byte} {j : Nat} {eq vp vn : BitVec v.width}

/-- Below |P| the bits of `vp` and `vn` are the vertical differences of column `j` of the matrix (43_recurrence.md R172). -/
def HoldsColumn {w : Nat} (p t : List Byte) (j : Nat) (vp vn : BitVec w) : Prop :=
  ∀ i < p.length,
    vp.getLsbD i = decide (editMatrix p t (i + 1) j = editMatrix p t i j + 1) ∧
    vn.getLsbD i = decide (editMatrix p t (i + 1) j + 1 = editMatrix p t i j)

/-- The shifted hp and hn of a step from column `j` are the horizontal differences to column `j + 1`, row by row down from row 0, where the
difference is +1. -/
theorem shifted_horizontal (hp : p.length ≤ v.width) (heq : ∀ i < p.length, eq.getLsbD i = decide (p[i]? = t[j]?))
    (hcol : HoldsColumn p t j vp vn) : ∀ i < p.length,
      (recurrence v eq vp vn).hpShifted.getLsbD i = decide (editMatrix p t i (j + 1) = editMatrix p t i j + 1) ∧
      (recurrence v eq vp vn).hnShifted.getLsbD i = decide (editMatrix p t i (j + 1) + 1 = editMatrix p t i j) := by
  intro i hi
  induction i with
  | zero =>
    have hne : ¬ j + 1 + 1 = j := by omega
    simp [getLsbD_recurrence_hpShifted_zero, RecurrenceTrace.getLsbD_hnShifted_zero, hne]
  | succ i ih =>
    have hlt : i < p.length := Nat.lt_of_succ_lt hi
    have hw : i + 1 < v.width := Nat.lt_of_lt_of_le hi hp
    obtain ⟨-, hneg⟩ := ih hlt
    obtain ⟨hvp, hvn⟩ := hcol i hlt
    have hright := editMatrix_right_bounds p t i j
    have hdown := editMatrix_down_bounds p t i j
    have hcell := editMatrix_succ_succ p t i j
    constructor
    · rw [getLsbD_recurrence_hpShifted_succ hw, getLsbD_recurrence_hp (by omega), getLsbD_recurrence_d0 (by omega), hvp, hvn,
        heq i hlt, hneg, cell_pos hright hdown hcell]
    · rw [RecurrenceTrace.getLsbD_hnShifted_succ _ hw, getLsbD_recurrence_hn, getLsbD_recurrence_d0 (by omega), hvp, heq i hlt, hneg,
        cell_neg hright hdown hcell]

/-- One step of the recurrence moves from column `j` to column `j + 1` (43_recurrence.md R172): the vertical differences come out of each
cell as the horizontal ones do, with its two sides exchanged. -/
theorem recurrence_holdsColumn (hp : p.length ≤ v.width) (heq : ∀ i < p.length, eq.getLsbD i = decide (p[i]? = t[j]?))
    (hcol : HoldsColumn p t j vp vn) :
    HoldsColumn p t (j + 1) (recurrence v eq vp vn).vp (recurrence v eq vp vn).vn := by
  intro i hi
  obtain ⟨hpos, hneg⟩ := shifted_horizontal hp heq hcol i hi
  obtain ⟨-, hvn⟩ := hcol i hi
  have hright := editMatrix_right_bounds p t i j
  have hdown := editMatrix_down_bounds p t i j
  have hcell := (editMatrix_succ_succ p t i j).trans (congrArg (min · _) (Nat.min_comm _ _))
  constructor
  · rw [getLsbD_recurrence_vp (Nat.lt_of_lt_of_le hi hp), hpos, hneg, heq i hi, hvn, ← cell_pos hdown hright hcell,
      Bool.or_comm (decide (_ = _ + 1))]
  · rw [getLsbD_recurrence_vn, hpos, heq i hi, hvn, cell_neg hdown hright hcell]

/-- The vertical differences of a column add up to its cells; row 0 holds the column's index (43_recurrence.md R168). -/
theorem HoldsColumn.balance {w : Nat} {vp vn : BitVec w} (h : HoldsColumn p t j vp vn) {k : Nat} (hk : k ≤ p.length) :
    j + countBits vp k = editMatrix p t k j + countBits vn k := by
  induction k with
  | zero => rfl
  | succ k ih =>
    have hprev := ih (Nat.le_of_succ_le hk)
    obtain ⟨hvp, hvn⟩ := h k hk
    have hdown := editMatrix_down_bounds p t k j
    rw [countBits_succ, countBits_succ, hvp, hvn]
    simp only [Bool.toNat, Bool.cond_decide]
    split <;> split <;> omega

/-- A column is the same for any longer text. -/
theorem HoldsColumn.append {w : Nat} {vp vn : BitVec w} (h : HoldsColumn p t j vp vn) (hj : j ≤ t.length) (u : List Byte) :
    HoldsColumn p (t ++ u) j vp vn := by
  intro i hi
  rw [editMatrix_append p t u _ hj, editMatrix_append p t u _ hj]
  exact h i hi

end Column

end Sys2Proof.Machine

/-! SUPPORT. What the written words of a run and of a construction leave on the engine (30_encoding.md R93), the distance TEND writes
(43_recurrence.md R166), and the statements of the recurrence family settled from them. -/

namespace Sys2Proof

/-! The encoder against the decoder (30_encoding.md R80 to R84). -/

/-- The fields of the word that holds them (30_encoding.md R80). -/
@[simp] theorem F16.ofWord_toWord (f : F16) : F16.ofWord f.toWord = f := by
  obtain ⟨op, flags, byte⟩ := f
  have hop : (op ++ flags ++ byte).extractLsb' 12 4 = op :=
    (BitVec.extractLsb'_append_eq_of_le (by decide)).trans BitVec.extractLsb'_append_eq_left
  have hflags : (op ++ flags ++ byte).extractLsb' 8 4 = flags :=
    (BitVec.extractLsb'_append_eq_of_le (by decide)).trans BitVec.extractLsb'_append_eq_right
  have hbyte : (op ++ flags ++ byte).extractLsb' 0 8 = byte := BitVec.extractLsb'_append_eq_right
  show F16.mk _ _ _ = _
  rw [F16.toWord, hop, hflags, hbyte]

/-- Decoding an encoded command gives it back. -/
theorem decode_encode (i : Instr) : decode (encode i) = .ok i := by
  rw [decode, encode, F16.ofWord_toWord]
  cases i with
  | pbegin policy ascii => cases policy <;> cases ascii <;> rfl
  | _ => rfl

end Sys2Proof

namespace Sys2Proof.Machine

/-! Accepted words, and runs of words on the machine. -/

section Accepted

variable {v : Variant} {e : Engine v} {i : Instr}

/-- The word of an accepted command has the command's effect. -/
theorem engineIssue_encode (ha : acceptedIn i e.state = true) : engineIssue (encode i) e = effect v i e :=
  engineIssue_accepted (decode_encode i) ha

/-- The run of an accepted command's word alone. -/
theorem engineRun_singleton {w : Word16} {e' : Engine v} (h : engineIssue w e = .ok e') : engineRun [w] e = .ok e' :=
  engineRun_cons_ok h

/-- On the machine the written words leave what they leave on the engine, and no action of the host. -/
theorem State.afterWords_eq {s : State} {ws : List Word16} {e : Engine s.variant} (h : engineRun ws s.engine = .ok e) :
    s.afterWords ws = .next { s with engine := e, host := [] } := by
  have hrun := run_writes ws [] s h
  rw [List.append_nil] at hrun
  exact hrun

end Accepted

/-! TEND's distance (43_recurrence.md R166 to R168). -/

section Tend

variable {v : Variant} {e : Engine v} {p t : List Byte}

/-- From bit `i` on, a register under the mask of its low `i` bits has no further bit to count. -/
theorem countBits_and_lowMask {w i n : Nat} (a : BitVec w) (hi : i ≤ w) (hn : i ≤ n) :
    countBits (a &&& BitVec.ofNat w (2 ^ i - 1)) n = countBits a i := by
  induction n, hn using Nat.le_induction with
  | base =>
    refine countBits_congr fun k hk => ?_
    rw [BitVec.getLsbD_and, getLsbD_lowMask, decide_eq_true hk, decide_eq_true (Nat.lt_of_lt_of_le hk hi), Bool.and_true,
      Bool.and_true]
  | succ n hn ih =>
    rw [countBits_succ, ih, BitVec.getLsbD_and, getLsbD_lowMask, decide_eq_false (Nat.not_lt.mpr hn), Bool.and_false,
      Bool.and_false]
    rfl

/-- The distance of 43_recurrence.md R166: COUNT plus the set bits of VP below LEN minus those of VN, mod 2^64. -/
def Engine.distance (e : Engine v) : Word64 :=
  BitVec.ofInt 64 ((e.count.toNat : Int) + countBits e.vp e.len.toNat - countBits e.vn e.len.toNat)

/-- The engine after TEND (43_recurrence.md R166). -/
def Engine.finish (e : Engine v) : Engine v := { e with dist := e.distance, state := .done }

@[simp] theorem Engine.finish_vp : e.finish.vp = e.vp := rfl
@[simp] theorem Engine.finish_vn : e.finish.vn = e.vn := rfl

/-- With LEN in its range TEND completes with the distance below LEN. -/
theorem Engine.extract_eq (h : e.len.toNat ≤ v.width) : e.extract = .ok e.finish := by
  rw [Engine.extract_ok (uptoW_eq v h)]
  simp only [Engine.maskedDistance, popcountW_eq_countBits, countBits_and_lowMask _ h h]
  rfl

/-- LEN of a run is in its range (10_state.md R27). -/
theorem Engine.HasConsumed.len_le (h : e.HasConsumed p t) : e.len.toNat ≤ v.width := by
  obtain ⟨-, ⟨hfits, hlen, -⟩, -⟩ := h
  rw [hlen]; exact hfits

/-- The differences of the last column add up to its last cell, lev(P, T) (43_recurrence.md R168). -/
theorem Engine.HasConsumed.balance (h : e.HasConsumed p t) :
    t.length + countBits e.vp p.length = lev p t + countBits e.vn p.length := by
  obtain ⟨-, -, -, hcol⟩ := h
  exact HoldsColumn.balance hcol (Nat.le_refl _)

/-- The distance is at most the longer length (43_recurrence.md R168). -/
theorem lev_le_max (p t : List Byte) : lev p t ≤ max p.length t.length := editMatrix_le_max p t _ _

/-- The distance of a run is lev(P, T): at most the longer length, so the mod 2^64 changes nothing (43_recurrence.md R167, R168). -/
theorem Engine.HasConsumed.distance_toNat (h : e.HasConsumed p t) : e.distance.toNat = lev p t := by
  have hbalance := h.balance
  obtain ⟨-, ⟨hfits, hlen, -⟩, hcount, -⟩ := h
  have hw : v.width ≤ 512 := by cases v <;> decide
  have hmax := lev_le_max p t
  have hlt : e.count.toNat < 2 ^ 64 := e.count.isLt
  have hsum : (e.count.toNat : Int) + countBits e.vp e.len.toNat - countBits e.vn e.len.toNat = (lev p t : Int) := by
    rw [hcount, hlen]; omega
  rw [Engine.distance, hsum, BitVec.ofInt_natCast, BitVec.toNat_ofNat, Nat.mod_eq_of_lt (by omega)]

end Tend

/-! A text, byte by byte, and a whole run (43_recurrence.md R164 to R166, 30_encoding.md R93). -/

section Advance

variable {v : Variant} {e : Engine v} {p t : List Byte}

/-- The engine after a TSTEP below the last count (43_recurrence.md R165). -/
def Engine.advance (e : Engine v) (b : Byte) : Engine v :=
  { e with
    vp := (recurrence v (e.peqRead b) e.vp e.vn).vp
    vn := (recurrence v (e.peqRead b) e.vp e.vn).vn
    count := e.count + 1 }

/-- Below the last count a TSTEP's effect is `advance`. -/
theorem Engine.consume_eq_advance (w : Word16) (b : Byte) (h : e.count.toNat < 2 ^ 64 - 1) : e.consume w b = e.advance b :=
  Engine.consume_below w b (mt count_eq_allOnes_iff.mp (Nat.ne_of_lt h))

/-- The engine in a run that TBEGIN started and that has consumed the text `t`. -/
def Engine.afterText (e : Engine v) (t : List Byte) : Engine v := t.foldl Engine.advance e.startRun

/-- COUNT + 1 does not wrap below the last count (10_state.md R25). -/
theorem count_succ_toNat {n : Word64} (h : n.toNat < 2 ^ 64 - 1) : (n + 1).toNat = n.toNat + 1 := by
  bv_omega

/-- TSTEP below the last count consumes its byte. -/
theorem engineIssue_tstep (b : Byte) (hs : e.state = .run) (hc : e.count.toNat < 2 ^ 64 - 1) :
    engineIssue (encode (.tstep b)) e = .ok (e.advance b) := by
  have ha : acceptedIn (.tstep b) e.state = true := beq_iff_eq.mpr hs
  rw [engineIssue_encode ha]
  exact congrArg Except.ok (Engine.consume_eq_advance _ b hc)

/-- TSTEP's word: the opcode over the byte (30_encoding.md R84). -/
theorem encode_tstep (b : Byte) : encode (.tstep b) = 0x6000 ||| b.setWidth 16 := by
  show 0x6#4 ++ 0#4 ++ b = 0x6000 ||| b.setWidth 16
  rw [BitVec.append_def, BitVec.setWidth'_eq]
  rfl

/-- TBEGIN on a table of P gives column 0 (43_recurrence.md R160, R172). -/
theorem Engine.HoldsPattern.startRun (h : e.HoldsPattern p) : e.startRun.HasConsumed p [] := by
  refine ⟨rfl, h, rfl, fun i hi => ?_⟩
  have hw : i < v.width := Nat.lt_of_lt_of_le hi h.1
  have hne : ¬ i + 1 + 1 = i := by omega
  simp [hw, hne]

/-- A TSTEP moves a run of P from column |T| to the next (43_recurrence.md R172). -/
theorem Engine.HasConsumed.advance (h : e.HasConsumed p t) (ht : t.length < 2 ^ 64 - 1) (b : Byte) :
    (e.advance b).HasConsumed p (t ++ [b]) := by
  obtain ⟨hstate, hholds, hcount, hcol⟩ := h
  obtain ⟨hfits, hlen, hbits⟩ := hholds
  have hbyte : (t ++ [b])[t.length]? = some b := List.getElem?_concat_length
  refine ⟨hstate, ⟨hfits, hlen, hbits⟩, ?count, ?column⟩
  case count =>
    show (e.count + 1).toNat = _
    rw [count_succ_toNat (by omega), hcount, List.length_append, List.length_singleton]
  case column =>
    have heq : ∀ i < p.length, (e.peqRead b).getLsbD i = decide (p[i]? = (t ++ [b])[t.length]?) := fun i _ => by
      rw [hbyte, hbits]
    have hnext := recurrence_holdsColumn hfits heq (HoldsColumn.append hcol (Nat.le_refl _) [b])
    rw [List.length_append]
    exact hnext

/-- A text consumed byte by byte. -/
theorem Engine.HasConsumed.foldl_advance (u : List Byte) (h : e.HasConsumed p t) (ht : t.length + u.length < 2 ^ 64) :
    (u.foldl Engine.advance e).HasConsumed p (t ++ u) := by
  induction u generalizing e t with
  | nil => rw [List.append_nil]; exact h
  | cons b u ih =>
    rw [List.length_cons] at ht
    have hnext := h.advance (by omega) b
    rw [List.append_cons]
    refine ih hnext ?_
    rw [List.length_append, List.length_singleton]; omega

/-- The text's TSTEPs leave an engine in RUN where the fold leaves it, below the last count. -/
theorem engineRun_tstr (t : List Byte) (hs : e.state = .run) (hc : e.count.toNat + t.length < 2 ^ 64) :
    engineRun (tstr t) e = .ok (t.foldl Engine.advance e) := by
  induction t generalizing e with
  | nil => rfl
  | cons b t ih =>
    rw [List.length_cons] at hc
    have hb : e.count.toNat < 2 ^ 64 - 1 := by omega
    have hnext : (e.advance b).count.toNat + t.length < 2 ^ 64 := by
      show (e.count + 1).toNat + t.length < 2 ^ 64
      rw [count_succ_toNat hb]; omega
    exact (engineRun_cons_ok (engineIssue_tstep b hs hb)).trans (ih hs hnext)

/-- A text leaves STATE and LEN as they are. -/
theorem Engine.foldl_advance_frame (t : List Byte) (e : Engine v) :
    (t.foldl Engine.advance e).state = e.state ∧ (t.foldl Engine.advance e).len = e.len := by
  induction t generalizing e with
  | nil => exact ⟨rfl, rfl⟩
  | cons b t ih => exact ih (e.advance b)

/-- A run on a table of P has consumed its text when TEND comes. -/
theorem Engine.HoldsPattern.afterText (h : e.HoldsPattern p) (ht : t.length < 2 ^ 64) : (e.afterText t).HasConsumed p t :=
  h.startRun.foldl_advance t (by simpa using ht)

/-- A run of a text on a frozen table: TBEGIN, the text byte by byte, TEND. -/
theorem engineRun_editDistanceWithPeq (t : List Byte) (hq : e.state = .ready ∨ e.state = .run ∨ e.state = .done)
    (hlen : e.len.toNat ≤ v.width) (ht : t.length < 2 ^ 64) :
    engineRun (editDistanceWithPeq t) e = .ok (e.afterText t).finish := by
  have ⟨hstate, hkeeps⟩ := Engine.foldl_advance_frame t e.startRun
  have hbegin : engineIssue (encode .tbegin) e = .ok e.startRun := engineIssue_encode (acceptedIn_tbegin.mpr hq)
  have hcount : e.startRun.count.toNat + t.length < 2 ^ 64 := by simpa using ht
  have htext : engineRun (encode .tbegin :: tstr t) e = .ok (e.afterText t) :=
    (engineRun_cons_ok hbegin).trans (engineRun_tstr t rfl hcount)
  have hend : engineIssue (encode .tend) (e.afterText t) = .ok (e.afterText t).finish :=
    (engineIssue_encode (i := .tend) (beq_iff_eq.mpr hstate)).trans (Engine.extract_eq (hkeeps ▸ hlen))
  exact (engineRun_append htext).trans (engineRun_singleton hend)

end Advance

/-! A construction, byte by byte, and the runs that begin with one (41_peq.md R123 to R127, 30_encoding.md R93). -/

section Construction

variable {v : Variant} {e : Engine v} {policy ascii : Bool} {p : List Byte}

/-- The engine in a construction that has pushed the bytes `p` since PBEGIN (41_peq.md R123, R124): the bytes below W are in the table, and
the pending flags tell of any other and of the bytes ≥ 0x80 under ASCII. -/
structure Engine.HasPushed (e : Engine v) (policy ascii : Bool) (p : List Byte) : Prop where
  state : e.state = .build
  err : e.err = .none
  policy_eq : e.policy = policy
  ascii_eq : e.ascii = ascii
  len : e.len.toNat = min p.length v.width
  peq : ∀ (c : Byte), ∀ i < v.width, (e.peqRead c).getLsbD i = decide (p[i]? = some c)
  pendNa : e.pendNa = (ascii && p.any nonAscii)
  pendTl : e.pendTl = decide (v.width < p.length)

/-- PBEGIN starts a construction with no byte pushed. -/
theorem Engine.startBuild_hasPushed (e : Engine v) (policy ascii : Bool) :
    (e.startBuild policy ascii).HasPushed policy ascii [] where
  state := rfl
  err := rfl
  policy_eq := rfl
  ascii_eq := rfl
  len := by simp
  peq := by simp
  pendNa := by simp
  pendTl := by simp

/-- The byte at a place of a list with one more byte. -/
theorem decide_getElem?_concat (p : List Byte) (b c : Byte) (i : Nat) :
    decide ((p ++ [b])[i]? = some c) = (decide (p[i]? = some c) || (decide (c = b) && decide (i = p.length))) := by
  obtain hi | rfl | hi := Nat.lt_trichotomy i p.length
  · simp [List.getElem?_append_left hi, Nat.ne_of_lt hi]
  · simp [eq_comm]
  · simp [List.getElem?_eq_none (Nat.le_of_lt hi), List.getElem?_append_right (Nat.le_of_lt hi), Nat.ne_of_gt hi,
      List.getElem?_eq_none (show [b].length ≤ i - p.length by simp; omega)]

/-- PPUSH appends its byte to the pushed ones. -/
theorem Engine.HasPushed.pushByte (h : e.HasPushed policy ascii p) (b : Byte) :
    ∃ e', e.pushByte b = .ok e' ∧ e'.HasPushed policy ascii (p ++ [b]) := by
  have hlen := h.len
  have hconcat : (p ++ [b]).length = p.length + 1 := List.length_append
  have hna : e.pendNaAfter b = (ascii && (p ++ [b]).any nonAscii) := by
    rw [Engine.pendNaAfter, h.pendNa, h.ascii_eq, List.any_append, List.any_cons, List.any_nil, Bool.or_false,
      Bool.and_or_distrib_left]
  by_cases hl : e.len.toNat < v.width
  · have hshort : e.len.toNat = p.length := by omega
    refine ⟨_, Engine.pushByte_below b hl, ⟨h.state, h.err, h.policy_eq, h.ascii_eq, ?len, ?peq, hna, ?pendTl⟩⟩
    case len =>
      show (e.len + 1).toNat = _
      rw [len_succ_toNat hl]; omega
    case peq =>
      intro c i hi
      rw [decide_getElem?_concat, ← h.peq c i hi, ← hshort]
      exact Engine.getLsbD_peqRead_setBit b c i hl
    case pendTl =>
      rw [hconcat]
      exact h.pendTl.trans (decide_eq_decide.mpr (by omega))
  · have hlong : v.width ≤ p.length := by omega
    refine ⟨_, Engine.pushByte_full b (Nat.not_lt.mp hl), ⟨h.state, h.err, h.policy_eq, h.ascii_eq, ?len, ?peq, hna, ?pendTl⟩⟩
    case len => show e.len.toNat = _; omega
    case peq =>
      intro c i hi
      rw [List.getElem?_append_left (Nat.lt_of_lt_of_le hi hlong)]
      exact h.peq c i hi
    case pendTl => exact (decide_eq_true (by omega)).symm

/-- A pattern pushed byte by byte. -/
theorem engineRun_pstr (q : List Byte) (h : e.HasPushed policy ascii p) :
    ∃ e', engineRun (pstr q) e = .ok e' ∧ e'.HasPushed policy ascii (p ++ q) := by
  induction q generalizing e p with
  | nil => exact ⟨e, rfl, (List.append_nil p).symm ▸ h⟩
  | cons b q ih =>
    obtain ⟨e₁, hpush, h₁⟩ := h.pushByte b
    obtain ⟨e₂, hrest, h₂⟩ := ih h₁
    have hissue : engineIssue (encode (.ppush b)) e = .ok e₁ :=
      (engineIssue_encode (i := .ppush b) (beq_iff_eq.mpr h.state)).trans hpush
    rw [List.append_cons]
    exact ⟨e₂, (engineRun_cons_ok hissue).trans hrest, h₂⟩

/-- A construction is PEND on the pushed pattern, whatever the pattern (30_encoding.md R93). -/
theorem engineRun_construction (policy ascii : Bool) (p : List Byte) (hf : e.state ≠ .fault) :
    ∃ b : Engine v, b.HasPushed policy ascii p ∧ engineRun (construction policy ascii p) e = .ok (b.endBuild (encode .pend)) := by
  have hbegin : engineIssue (encode (.pbegin policy ascii)) e = .ok (e.startBuild policy ascii) :=
    engineIssue_encode (bne_iff_ne.mpr hf)
  obtain ⟨b, hpush, hb⟩ := engineRun_pstr p (e.startBuild_hasPushed policy ascii)
  have hpattern : engineRun (encode (.pbegin policy ascii) :: pstr p) e = .ok b := (engineRun_cons_ok hbegin).trans hpush
  have hend : engineIssue (encode .pend) b = .ok (b.endBuild (encode .pend)) :=
    engineIssue_encode (i := .pend) (beq_iff_eq.mpr hb.state)
  exact ⟨b, hb, (engineRun_append hpattern).trans (engineRun_singleton hend)⟩

/-- The table of a pushed pattern of at most W bytes is the pattern's (41_peq.md R120). -/
theorem Engine.HasPushed.holdsPattern (h : e.HasPushed policy ascii p) (hp : p.length ≤ v.width) : e.HoldsPattern p := by
  refine ⟨hp, h.len.trans (Nat.min_eq_left hp), fun c i => ?_⟩
  by_cases hi : i < v.width
  · exact h.peq c i hi
  · rw [BitVec.getLsbD_of_ge _ i (Nat.not_lt.mp hi), List.getElem?_eq_none (by omega)]; rfl

/-- Without a byte ≥ 0x80 under ASCII no NON_ASCII is pending. -/
theorem Engine.HasPushed.pendNa_false (h : e.HasPushed policy ascii p) (hascii : ascii = true → ∀ b ∈ p, b.toNat < 0x80) :
    e.pendNa = false := by
  rw [h.pendNa, Bool.and_eq_false_iff]
  cases ascii with
  | false => exact .inl rfl
  | true =>
    refine .inr (List.any_eq_false.mpr fun b hb => ?_)
    have := hascii rfl b hb
    simp only [nonAscii, decide_eq_true_eq]; omega

/-- A construction of at most W bytes, under ASCII all below 0x80, ends in READY with the pattern's table (41_peq.md R120, R127). -/
theorem engineRun_construction_ready (policy ascii : Bool) {p : List Byte} (hf : e.state ≠ .fault) (hp : p.length ≤ v.width)
    (hascii : ascii = true → ∀ b ∈ p, b.toNat < 0x80) :
    ∃ b : Engine v, engineRun (construction policy ascii p) e = .ok b ∧ b.state = .ready ∧ b.err = .none ∧ b.HoldsPattern p := by
  obtain ⟨b, hb, hrun⟩ := engineRun_construction policy ascii p hf
  have htl : b.pendTl = false := hb.pendTl.trans (decide_eq_false (Nat.not_lt.mpr hp))
  rw [Engine.endBuild_of_clear _ (hb.pendNa_false hascii) htl] at hrun
  exact ⟨_, hrun, rfl, hb.err, hb.holdsPattern hp⟩

/-- A recoverable construction of more than W bytes, under ASCII all below 0x80, ends in IDLE with PATTERN_TOO_LONG (41_peq.md R127,
60_exceptions.md R208). -/
theorem engineRun_construction_tooLong (ascii : Bool) {p : List Byte} (hf : e.state ≠ .fault) (hp : v.width < p.length)
    (hascii : ascii = true → ∀ b ∈ p, b.toNat < 0x80) :
    ∃ b : Engine v, engineRun (construction true ascii p) e = .ok (b.raiseError .patternTooLong) := by
  obtain ⟨b, hb, hrun⟩ := engineRun_construction true ascii p hf
  have htl : b.pendTl = true := hb.pendTl.trans (decide_eq_true hp)
  have herr := Engine.pendingError_of_flags (.inr ⟨hb.pendNa_false hascii, htl, rfl⟩)
  exact ⟨b, hrun.trans (congrArg Except.ok (Engine.endBuild_recoverable _ herr hb.policy_eq))⟩

/-- `EDIT_DISTANCE P, T` is the run of the text on the built table of the pattern (30_encoding.md R93). -/
theorem engineRun_editDistance {p t : List Byte} (hf : e.state ≠ .fault) (hp : p.length ≤ v.width) (ht : t.length < 2 ^ 64) :
    ∃ b : Engine v, b.HoldsPattern p ∧ engineRun (editDistance p t) e = .ok (b.afterText t).finish := by
  obtain ⟨b, hrun, hready, -, hb⟩ := engineRun_construction_ready (ascii := false) false hf hp (by simp)
  exact ⟨b, hb, (engineRun_append hrun).trans (engineRun_editDistanceWithPeq t (.inl hready) hb.startRun.len_le ht)⟩

end Construction

/-! Two engines that differ above some bit (43_recurrence.md R169, R170). -/

section LowBits

variable {v v' : Variant} {e : Engine v} {e' : Engine v'} {p : List Byte} {k : Nat}

/-- The tables and the deltas of two engines agree below bit `k` (43_recurrence.md R169). -/
def Engine.DeltasAgreeBelow (k : Nat) (e : Engine v) (e' : Engine v') : Prop :=
  (∀ c, ∀ i < k, (e.peqRead c).getLsbD i = (e'.peqRead c).getLsbD i) ∧
    ∀ i < k, e.vp.getLsbD i = e'.vp.getLsbD i ∧ e.vn.getLsbD i = e'.vn.getLsbD i

/-- Runs on tables of one pattern start in agreement, whatever the two builds. -/
theorem Engine.HoldsPattern.startRun_agree (h : e.HoldsPattern p) (h' : e'.HoldsPattern p) (hk : k ≤ v.width) (hk' : k ≤ v'.width) :
    Engine.DeltasAgreeBelow k e.startRun e'.startRun := by
  obtain ⟨-, -, hbits⟩ := h
  obtain ⟨-, -, hbits'⟩ := h'
  refine ⟨fun c i _ => (hbits c i).trans (hbits' c i).symm, fun i hi => ?_⟩
  simp [Nat.lt_of_lt_of_le hi hk, Nat.lt_of_lt_of_le hi hk']

/-- The text's steps keep the agreement, since information flows only upward (43_recurrence.md R170). -/
theorem Engine.DeltasAgreeBelow.foldl_advance (t : List Byte) (h : Engine.DeltasAgreeBelow k e e') (hk : k ≤ v.width)
    (hk' : k ≤ v'.width) :
    Engine.DeltasAgreeBelow k (t.foldl Engine.advance e) (t.foldl Engine.advance e') := by
  induction t generalizing e e' with
  | nil => exact h
  | cons b t ih =>
    obtain ⟨htable, hdeltas⟩ := h
    exact ih ⟨htable, recurrence_agree hk hk' fun i hi => ⟨htable b i hi, hdeltas i hi⟩⟩

/-- Lane 0 is the low 64 bits (00_scope.md R6). -/
theorem lane_zero_congr {w w' : Nat} {a : BitVec w} {a' : BitVec w'} (h : ∀ i < 64, a.getLsbD i = a'.getLsbD i) :
    lane a 0 = lane a' 0 := by
  apply BitVec.eq_of_getLsbD_eq
  intro i hi
  rw [getLsbD_lane, getLsbD_lane, Nat.mul_zero, Nat.zero_add, h i hi]

end LowBits

/-! The obligations of the recurrence family. -/

/-- Settles O51: TBEGIN gives column 0, every TSTEP the next column, and the last column adds up to lev(P, T). -/
theorem runOnABuiltTableComputesLevenshtein : Obligations.RunOnABuiltTableComputesLevenshtein := by
  unfold Obligations.RunOnABuiltTableComputesLevenshtein
  intro s p t hq hp ht
  have hconsumed := hp.afterText ht
  have hrun := engineRun_editDistanceWithPeq t hq hp.startRun.len_le ht
  have ⟨_, hholds, hcount, _⟩ := hconsumed
  exact ⟨_, State.afterWords_eq hrun, rfl, hconsumed.distance_toNat, hcount, hholds⟩

/-- Settles O52: the construction ends in READY with the pattern's table, and the run on it has consumed the text. -/
theorem editDistanceSequenceComputesLevenshtein : Obligations.EditDistanceSequenceComputesLevenshtein := by
  unfold Obligations.EditDistanceSequenceComputesLevenshtein
  intro s p t hf hp ht
  obtain ⟨b, hb, hrun⟩ := engineRun_editDistance hf hp ht
  exact ⟨_, State.afterWords_eq hrun, rfl, (hb.afterText ht).distance_toNat⟩

/-- Settles O53: the bounds of the matrix, and the sum of its last column. -/
theorem distanceRange : Obligations.DistanceRange := by
  unfold Obligations.DistanceRange
  intro s p t hf hp ht
  obtain ⟨b, hb, hrun⟩ := engineRun_editDistance hf hp ht
  have hconsumed := hb.afterText ht
  have hbalance := hconsumed.balance
  have hdist : (b.afterText t).finish.dist.toNat = lev p t := hconsumed.distance_toNat
  refine ⟨_, State.afterWords_eq hrun, ?_⟩
  rw [hdist, ← countBits_eq_countP, ← countBits_eq_countP, Engine.finish_vp, Engine.finish_vn]
  exact ⟨lev_le_max p t, row_le_editMatrix_add p t _ _, column_le_editMatrix_add p t _ _, by omega⟩

/-- Settles O57: both distances are lev(P, T), and the low 64 bits of the deltas agree from TBEGIN on. -/
theorem backendsReturnIdenticalDistances : Obligations.BackendsReturnIdenticalDistances := by
  unfold Obligations.BackendsReturnIdenticalDistances
  intro s s' p t hv hv' hf hf' hp ht
  have hw : 64 ≤ s.variant.width := by rw [hv]; decide
  have hw' : 64 ≤ s'.variant.width := by rw [hv']; decide
  obtain ⟨b, hb, hrun⟩ := engineRun_editDistance hf (hp.trans hw) ht
  obtain ⟨b', hb', hrun'⟩ := engineRun_editDistance hf' (hp.trans hw') ht
  obtain ⟨-, hdeltas⟩ := (hb.startRun_agree hb' hw hw').foldl_advance t hw hw'
  refine ⟨_, _, State.afterWords_eq hrun, State.afterWords_eq hrun', rfl, rfl, ?dist, ?vp, ?vn⟩
  case dist =>
    exact BitVec.eq_of_toNat_eq ((hb.afterText ht).distance_toNat.trans (hb'.afterText ht).distance_toNat.symm)
  case vp => exact (lane_zero_congr fun i hi => (hdeltas i hi).1).symm
  case vn => exact (lane_zero_congr fun i hi => (hdeltas i hi).2).symm

/-- Settles O22: the variant's addition and shift are the whole register's. -/
theorem tstepRunsTheRecurrence : Obligations.TstepRunsTheRecurrence := by
  unfold Obligations.TstepRunsTheRecurrence
  refine ⟨fun s b hs hc => ?recurrence, fun s b hs hc => ?overflow, fun s b hs hf => ?sequence, encode_tstep⟩
  case recurrence =>
    have hbelow := Engine.consume_eq_advance (encode (.tstep b)) b hc
    rw [Engine.advance, recurrence_eq] at hbelow
    have hcount : s.engine.count + 1 = BitVec.ofNat 64 (s.engine.count.toNat + 1) := by
      rw [BitVec.ofNat_add, BitVec.ofNat_toNat, BitVec.setWidth_eq]; rfl
    rw [hcount] at hbelow
    exact exec_accepted (beq_iff_eq.mpr hs) (congrArg Except.ok hbelow)
  case overflow =>
    rw [← encode_tstep]
    exact exec_accepted (beq_iff_eq.mpr hs) (congrArg Except.ok (Engine.consume_overflow _ b (count_eq_allOnes_iff.mpr hc)))
  case sequence =>
    rw [← encode_tstep]
    exact exec_sequence (beq_eq_false_iff_ne.mpr hs) hf

/-- Settles O24: the popcounts under the mask are the counts below LEN. -/
theorem tendExtractsTheDistance : Obligations.TendExtractsTheDistance := by
  unfold Obligations.TendExtractsTheDistance
  refine ⟨fun s hs hlen => ?distance, fun s hs hf => ?sequence, rfl⟩
  case distance =>
    rw [← countBits_eq_countP, ← countBits_eq_countP]
    exact exec_accepted (beq_iff_eq.mpr hs) (Engine.extract_eq hlen)
  case sequence => exact exec_sequence (beq_eq_false_iff_ne.mpr hs) hf

/-- Settles O42, by the carry's way upward through d0 and hn. -/
theorem informationFlowsOnlyUpward : Obligations.InformationFlowsOnlyUpward := by
  unfold Obligations.InformationFlowsOnlyUpward
  intro v v' k eq vp vn eq' vp' vn' hk hk' h i hi
  exact recurrence_agree hk hk' (fun i hi => h i (Nat.le_of_lt_succ hi)) i (Nat.lt_succ_of_le hi)

/-- Settles O50: the vertical differences of the last column add up to its last cell. -/
theorem tendWritesTheLevenshteinDistance : Obligations.TendWritesTheLevenshteinDistance := by
  unfold Obligations.TendWritesTheLevenshteinDistance
  intro s p t h
  have ⟨hs, _⟩ := h
  exact ⟨s.engine.finish, exec_accepted (beq_iff_eq.mpr hs) (Engine.extract_eq h.len_le), rfl, h.distance_toNat⟩

/-- Settles O58: READY and the run for a pattern that fits, the recoverable report and no further word for a longer one. -/
theorem tryEditDistanceNeverFaults : Obligations.TryEditDistanceNeverFaults := by
  unfold Obligations.TryEditDistanceNeverFaults
  intro s p t hf ht
  by_cases hp : p.length ≤ s.variant.width
  · obtain ⟨b, hbuild, hready, -, hb⟩ := engineRun_construction_ready (ascii := false) true hf hp (by simp)
    have hrun := engineRun_editDistanceWithPeq t (.inl hready) hb.startRun.len_le ht
    have hwords : tryRun t b.state = editDistanceWithPeq t := if_pos hready
    refine ⟨b, (b.afterText t).finish, State.afterWords_eq hbuild, ?run, fun _ => ⟨rfl, (hb.afterText ht).distance_toNat⟩,
      fun h => absurd hp (Nat.not_le.mpr h)⟩
    case run =>
      rw [hwords]
      exact State.afterWords_eq (s := { s with engine := b }) hrun
  · obtain ⟨b, hbuild⟩ := engineRun_construction_tooLong false hf (Nat.not_le.mp hp) (by simp)
    exact ⟨_, _, State.afterWords_eq hbuild, State.afterWords_eq (s := { s with engine := b.raiseError .patternTooLong }) rfl,
      fun h => absurd h hp, fun _ => ⟨rfl, rfl⟩⟩

/-- Settles O21: TBEGIN's effect where it is accepted, SEQUENCE where it is not. -/
theorem tbeginStartsARun : Obligations.TbeginStartsARun := by
  unfold Obligations.TbeginStartsARun
  refine ⟨fun s hq => exec_accepted (acceptedIn_tbegin.mpr hq) rfl, fun s hq => ?sequence, rfl⟩
  case sequence =>
    obtain hq | hq := hq
    · exact exec_sequence (by rw [hq]; rfl) (by rw [hq]; decide)
    · exact exec_sequence (by rw [hq]; rfl) (by rw [hq]; decide)

end Sys2Proof.Machine

/-! SUPPORT. The words of opcode 0, a command in FAULT and in IDLE by its cell of the table (30_encoding.md R82, R87), and the statements of the
control family settled from them. -/

namespace Sys2Proof

/-- A word of opcode 0 is legal only when both its other fields are zero (30_encoding.md R82). -/
theorem legalWord_of_op_zero {w : Word16} (hop : w.extractLsb' 12 4 = 0x0) : legalWord w = (F16.ofWord w).noOperand :=
  if_pos (.inl hop)

/-- The only legal word of opcode 0 is NOP's (44_control.md R190). -/
theorem eq_zero_of_legal_op_zero {w : Word16} (hop : w.extractLsb' 12 4 = 0x0) (h : legalWord w = true) : w = 0x0000 := by
  rw [legalWord_of_op_zero hop, F16.noOperand, Bool.and_eq_true, beq_iff_eq, beq_iff_eq] at h
  obtain ⟨hflags, hbyte⟩ := h
  have hfields : F16.ofWord w = ⟨0x0, 0, 0⟩ := (F16.mk.injEq ..).mpr ⟨hop, hflags, hbyte⟩
  rw [← F16.toWord_ofWord w, hfields]
  rfl

end Sys2Proof

namespace Sys2Proof.Machine

section Control

variable {v : Variant} {e : Engine v} {i : Instr} {s t : State}

/-- NOP's effect and its discard in FAULT are one. -/
theorem gated_nop : gated .nop (effect v .nop) e = .ok e := by
  by_cases hf : e.state = .fault
  · exact gated_discarded (by rw [hf]; rfl) hf
  · exact gated_accepted (bne_iff_ne.mpr hf)

/-- A command's next state stands in the command's cell of the table (30_encoding.md R87). -/
theorem exec_state (h : exec i s = .next t) : t.engine.state = s.engine.tableState i := by
  obtain ⟨e, he, rfl⟩ := exec_next.mp h
  exact gated_effect_state he

/-- FAULT's row of the table: every cell but RST's reads FAULT (60_exceptions.md R210). -/
theorem Engine.tableState_of_fault (hs : e.state = .fault) (hi : i ≠ .rst) : e.tableState i = .fault :=
  Engine.tableState_of_refused (by rw [hs, acceptedIn_fault, decide_eq_false hi])

/-- IDLE's row of the table: NOP and RST end in IDLE, PBEGIN in BUILD, and the other commands are not accepted. -/
theorem Engine.tableState_of_idle (hs : e.state = .idle) (hi : ∀ policy ascii, i ≠ .pbegin policy ascii) :
    e.tableState i = .idle ∨ e.tableState i = .fault := by
  cases i with
  | nop => exact .inl (Engine.tableState_nop.trans hs)
  | rst => exact .inl Engine.tableState_rst
  | pbegin policy ascii => exact absurd rfl (hi policy ascii)
  | _ => exact .inr (Engine.tableState_of_refused (by rw [hs]; rfl))

end Control

/-! The obligations of the control family. -/

/-- Settles O14: RST's effect, the cells of FAULT's and of IDLE's row, and the discard of an illegal word in FAULT. -/
theorem rstResetsAndAloneLeavesFault : Obligations.RstResetsAndAloneLeavesFault := by
  unfold Obligations.RstResetsAndAloneLeavesFault
  refine ⟨fun s => exec_accepted rfl rfl, rfl, ?leave, ?tbegin, ?idle, by decide, ?discarded⟩
  case leave =>
    intro i s t hs hexec hleft
    by_contra hi
    exact hleft ((exec_state hexec).trans (Engine.tableState_of_fault hs hi))
  case tbegin =>
    intro s
    exact exec_sequence (s := { s with engine := Engine.reset s.variant }) rfl (by simp)
  case idle =>
    intro i s t hs hexec hi
    rw [exec_state hexec]
    exact Engine.tableState_of_idle hs hi
  case discarded =>
    intro s rest hs hh
    exact step_of_write_ok hh (engineIssue_discarded hs (by decide))

/-- Settles O13: NOP's effect is the engine it is given, accepted or discarded. -/
theorem nopChangesNothing : Obligations.NopChangesNothing := by
  unfold Obligations.NopChangesNothing
  refine ⟨fun s => exec_next_engine.mpr gated_nop, rfl, fun w hop hne => ?_⟩
  exact Bool.eq_false_iff.mpr (mt (eq_zero_of_legal_op_zero hop) hne)

end Sys2Proof.Machine

/-! SUPPORT. A waiting host and a discarding engine over any number of steps (60_exceptions.md R209, R217), what can take an engine into FAULT, to
IDLE and to COUNT_OVERFLOW (R203 to R208), and the statements of the exceptions family settled from them. -/

namespace Sys2Proof

/-- The opcodes 0x8 to 0xF are reserved (30_encoding.md R85): no clause of R82 names one. -/
theorem wellFormed_of_reserved_op {f : F16} (h : 0x8 ≤ f.op.toNat) : f.wellFormed = false := by
  have hne {x : BitVec 4} (hx : x.toNat < 0x8) : f.op ≠ x := by
    rintro rfl
    omega
  simp [F16.wellFormed, hne]

end Sys2Proof

namespace Sys2Proof.Machine

/-! Runs that leave the engine as it is. -/

section Holding

variable {s : State} {rest : List HostAction}

/-- A host with no further action leaves the machine as it is for good (60_exceptions.md R217). -/
theorem run_of_no_action (n : Nat) (h : s.host = []) : Sys2Proof.core.run n s = .next s := by
  induction n with
  | zero => rfl
  | succ n ih => rw [run_succ_next (step_of_no_action h), ih]

/-- A host that idles `n` times leaves the engine as it is for `n` steps (60_exceptions.md R217). -/
theorem run_of_idles (n : Nat) (h : s.host = List.replicate n .idle ++ rest) :
    Sys2Proof.core.run n s = .next { s with host := rest } := by
  induction n generalizing s with
  | zero =>
    obtain rfl : s.host = rest := h
    rfl
  | succ n ih =>
    rw [run_succ_next (step_of_idle h)]
    exact ih rfl

/-- What a host can do without ending a fault: write any word but RST's, read, or idle (60_exceptions.md R209, R210). -/
def KeepsFault (a : HostAction) : Prop := (∃ w, a = .write w ∧ w ≠ 0x1000) ∨ (∃ r, a = .read r) ∨ a = .idle

/-- In FAULT such an action is taken and changes no more than the host's record of the words read. -/
theorem step_of_keepsFault {a : HostAction} (hf : s.engine.state = .fault) (hh : s.host = a :: rest) (ha : KeepsFault a) :
    ∃ log, step s = .next { s with host := rest, readLog := log } := by
  obtain ⟨w, rfl, hw⟩ | ⟨r, rfl⟩ | rfl := ha
  · exact ⟨s.readLog, step_of_write_ok hh (engineIssue_discarded hf hw)⟩
  · exact ⟨_, step_of_read hh⟩
  · exact ⟨s.readLog, step_of_idle hh⟩

/-- Nor do any number of them, since each meets the same engine. -/
theorem run_of_keepsFault (acts : List HostAction) (hf : s.engine.state = .fault) (hh : s.host = acts ++ rest)
    (ha : ∀ a ∈ acts, KeepsFault a) :
    ∃ log, Sys2Proof.core.run acts.length s = .next { s with host := rest, readLog := log } := by
  induction acts generalizing s with
  | nil =>
    obtain rfl : s.host = rest := hh
    exact ⟨s.readLog, rfl⟩
  | cons a acts ih =>
    obtain ⟨hhead, htail⟩ := List.forall_mem_cons.mp ha
    obtain ⟨log, hstep⟩ := step_of_keepsFault hf hh hhead
    rw [List.length_cons, run_succ_next hstep]
    exact ih hf rfl htail

end Holding

/-! What enters FAULT, IDLE and COUNT_OVERFLOW. -/

section Entry

variable {v : Variant} {e e' : Engine v} {i : Instr} {w : Word16}

/-- A construction error is neither NONE nor COUNT_OVERFLOW: it is one of the two codes of 60_exceptions.md R211. -/
theorem Engine.pendingError_ne {code : ErrCode} (h : e.pendingError = some code) : code ≠ .none ∧ code ≠ .countOverflow := by
  obtain ⟨-, rfl⟩ | ⟨-, -, rfl⟩ := Engine.pendingError_some h <;> decide

/-- The code of a construction with a pending flag. -/
theorem Engine.pendingError_of_pending (h : e.pendNa = true ∨ e.pendTl = true) :
    e.pendingError = some (if e.pendNa then .nonAscii else .patternTooLong) := by
  cases hna : e.pendNa with
  | true => exact Engine.pendingError_of_flags (.inl ⟨hna, rfl⟩)
  | false =>
    have htl : e.pendTl = true := h.resolve_left (by simp [hna])
    exact Engine.pendingError_of_flags (.inr ⟨hna, htl, rfl⟩)

/-- An accepted command enters FAULT by fault entry alone, with its own word (60_exceptions.md R207): PEND under the trusted policy, and
TSTEP at the last count. -/
theorem effect_enters_fault (h : effect v i e = .ok e') (hf : e.state ≠ .fault) (hf' : e'.state = .fault) :
    ∃ code, code ≠ .none ∧ e' = e.raiseFault code (encode i) := by
  obtain ⟨-, rfl⟩ | ⟨-, rfl⟩ | ⟨_, _, -, rfl⟩ | ⟨_, -, ⟨-, rfl⟩ | ⟨-, rfl⟩⟩ |
    ⟨rfl, ⟨-, -, rfl⟩ | ⟨code, herr, -, rfl⟩ | ⟨_, -, -, rfl⟩⟩ | ⟨-, rfl⟩ | ⟨_, rfl, ⟨-, rfl⟩ | ⟨-, rfl⟩⟩ | ⟨-, _, -, rfl⟩ :=
    effect_cases h
  · exact absurd hf' hf -- NOP
  · cases hf' -- RST
  · cases hf' -- PBEGIN
  · exact absurd hf' hf -- PPUSH below W
  · exact absurd hf' hf -- PPUSH at W
  · cases hf' -- PEND with no pending flag
  · exact ⟨code, (Engine.pendingError_ne herr).1, rfl⟩ -- PEND, trusted
  · cases hf' -- PEND, recoverable
  · cases hf' -- TBEGIN
  · exact ⟨.countOverflow, by decide, rfl⟩ -- TSTEP at the last count
  · exact absurd hf' hf -- TSTEP below it
  · cases hf' -- TEND

/-- So does every written word, legal or not, accepted or not. -/
theorem engineIssue_enters_fault (h : engineIssue w e = .ok e') (hf : e.state ≠ .fault) (hf' : e'.state = .fault) :
    ∃ code, code ≠ .none ∧ e' = e.raiseFault code w := by
  cases hd : decode w with
  | ok i =>
    obtain rfl : encode i = w := encode_of_decode hd
    rw [engineIssue_legal hd] at h
    obtain ⟨-, hr⟩ | ⟨-, hs, -⟩ | ⟨-, -, hr⟩ := gated_cases h
    · exact effect_enters_fault hr.symm hf hf'
    · exact absurd hs hf
    · cases hr; exact ⟨.sequence, by decide, rfl⟩
  | error d =>
    rw [engineIssue, hd] at h
    cases (if_neg hf).symm.trans h
    exact ⟨.illegalCommand, by decide, rfl⟩

/-- An accepted command writes COUNT_OVERFLOW only as a TSTEP at the last count (60_exceptions.md R205): PBEGIN and RST clear ERR, PEND writes
a construction error, and the others keep it. -/
theorem effect_enters_countOverflow (h : effect v i e = .ok e') (hne : e.err ≠ .countOverflow) (heq : e'.err = .countOverflow) :
    e.count = BitVec.allOnes 64 ∧ ∃ b, i = .tstep b := by
  obtain ⟨-, rfl⟩ | ⟨-, rfl⟩ | ⟨_, _, -, rfl⟩ | ⟨_, -, ⟨-, rfl⟩ | ⟨-, rfl⟩⟩ |
    ⟨-, ⟨-, -, rfl⟩ | ⟨code, herr, -, rfl⟩ | ⟨code, herr, -, rfl⟩⟩ | ⟨-, rfl⟩ | ⟨b, rfl, ⟨hc, -⟩ | ⟨-, rfl⟩⟩ | ⟨-, _, -, rfl⟩ :=
    effect_cases h
  · exact absurd heq hne -- NOP
  · cases heq -- RST
  · cases heq -- PBEGIN
  · exact absurd heq hne -- PPUSH below W
  · exact absurd heq hne -- PPUSH at W
  · exact absurd heq hne -- PEND with no pending flag
  · exact absurd heq (Engine.pendingError_ne herr).2 -- PEND, trusted
  · exact absurd heq (Engine.pendingError_ne herr).2 -- PEND, recoverable
  · exact absurd heq hne -- TBEGIN
  · exact ⟨hc, b, rfl⟩ -- TSTEP at the last count
  · exact absurd heq hne -- TSTEP below it
  · exact absurd heq hne -- TEND

/-- IDLE's column of the table: outside IDLE's own row it stands in RST's cells and in PEND's recoverable end (30_encoding.md R87). -/
theorem Engine.eq_pend_or_rst_of_tableState_idle (hs : e.state ≠ .idle) (h : e.tableState i = .idle) : i = .pend ∨ i = .rst := by
  have ha : acceptedIn i e.state = true := by
    by_contra ha
    rw [Engine.tableState_of_refused (Bool.eq_false_iff.mpr ha)] at h
    cases h
  cases i with
  | nop => exact absurd (Engine.tableState_nop.symm.trans h) hs
  | rst => exact .inr rfl
  | pbegin policy ascii => rw [Engine.tableState_pbegin (bne_iff_ne.mp ha)] at h; cases h
  | ppush b => rw [Engine.tableState_ppush (beq_iff_eq.mp ha)] at h; cases h
  | pend => exact .inl rfl
  | tbegin => rw [Engine.tableState_tbegin (acceptedIn_tbegin.mp ha)] at h; cases h
  | tstep b =>
    rw [Engine.tableState_tstep (beq_iff_eq.mp ha)] at h
    split at h <;> cases h
  | tend => rw [Engine.tableState_tend (beq_iff_eq.mp ha)] at h; cases h

end Entry

/-! The obligations of the exceptions family. -/

/-- Settles O9, by induction on the number of steps in both forms of waiting. -/
theorem engineHoldsStateWhileTheHostWaits : Obligations.EngineHoldsStateWhileTheHostWaits := by
  unfold Obligations.EngineHoldsStateWhileTheHostWaits
  exact ⟨fun n s => run_of_no_action n, fun n s rest => run_of_idles n⟩

/-- Settles O18: the engine answered is `raiseError`'s, and IDLE's column of the table gives who reaches it. -/
theorem recoverableErrorLeavesNoTable : Obligations.RecoverableErrorLeavesNoTable := by
  unfold Obligations.RecoverableErrorLeavesNoTable
  refine ⟨fun s hs hp hflags => ?report, fun i s t hexec hs ht => ?source⟩
  case report =>
    have herr := Engine.pendingError_of_pending hflags
    have hend := Engine.endBuild_recoverable (encode .pend) herr hp
    exact ⟨s.engine.raiseError _, exec_accepted (beq_iff_eq.mpr hs) (congrArg Except.ok hend), s.engine.peqRead_raiseError _,
      rfl, rfl, rfl, rfl, rfl, rfl, rfl, rfl, rfl, rfl, rfl, rfl, fun _ _ => rfl⟩
  case source => exact Engine.eq_pend_or_rst_of_tableState_idle hs ((exec_state hexec).symm.trans ht)

/-- Settles O23: a command that is discarded keeps ERR, one that is not accepted writes SEQUENCE, and an accepted one is left to its effect. -/
theorem countOverflowOnlyAtTheLastCount : Obligations.CountOverflowOnlyAtTheLastCount := by
  unfold Obligations.CountOverflowOnlyAtTheLastCount
  refine ⟨fun s b hs hc => ?raised, fun i s t hexec hne heq => ?only⟩
  case raised =>
    exact exec_accepted (beq_iff_eq.mpr hs) (congrArg Except.ok (Engine.consume_overflow _ b (count_eq_allOnes_iff.mpr hc)))
  case only =>
    obtain ⟨e, he, rfl⟩ := exec_next.mp hexec
    obtain ⟨ha, hr⟩ | ⟨-, -, hr⟩ | ⟨-, -, hr⟩ := gated_cases he
    · obtain ⟨hc, b, rfl⟩ := effect_enters_countOverflow hr.symm hne heq
      exact ⟨beq_iff_eq.mp ha, count_eq_allOnes_iff.mp hc, b, rfl⟩
    · cases hr; exact absurd heq hne
    · cases hr; cases heq

/-- Settles O27: the cells written out in the statement are those in which the command is not accepted. -/
theorem outOfOrderCommandRaisesSequence : Obligations.OutOfOrderCommandRaisesSequence := by
  unfold Obligations.OutOfOrderCommandRaisesSequence
  refine ⟨fun i s hf hcell => exec_sequence ?refused hf, rfl⟩
  case refused =>
    cases i with
    | nop => exact hcell.elim
    | rst => exact hcell.elim
    | pbegin policy ascii => exact hcell.elim
    | ppush b => exact beq_eq_false_iff_ne.mpr hcell
    | pend => exact beq_eq_false_iff_ne.mpr hcell
    | tbegin => obtain hs | hs := hcell <;> rw [hs] <;> rfl
    | tstep b => exact beq_eq_false_iff_ne.mpr hcell
    | tend => exact beq_eq_false_iff_ne.mpr hcell

/-- Settles O28: the decoding order's answer to an illegal word, and the reserved opcodes. -/
theorem illegalWordRaisesIllegalCommand : Obligations.IllegalWordRaisesIllegalCommand := by
  unfold Obligations.IllegalWordRaisesIllegalCommand
  exact ⟨fun s w rest hh hw hf => step_of_write_ok hh (engineIssue_illegal hf hw), fun w => wellFormed_of_reserved_op (f := F16.ofWord w),
    rfl⟩

/-- Settles O29: the engine that entered FAULT is fault entry's. -/
theorem faultEntryIsPrecise : Obligations.FaultEntryIsPrecise := by
  unfold Obligations.FaultEntryIsPrecise
  intro s t w rest hh hf hstep hf'
  rw [step_of_write hh] at hstep
  obtain ⟨e, he, rfl⟩ := State.onEngine_next.mp hstep
  obtain ⟨code, hcode, rfl⟩ := engineIssue_enters_fault he hf hf'
  exact ⟨rfl, hcode⟩

/-- Settles O30, by induction on the host's actions; 0x1000 is RST's word, which FAULT accepts. -/
theorem faultStateIsSticky : Obligations.FaultStateIsSticky := by
  unfold Obligations.FaultStateIsSticky
  refine ⟨fun s acts rest => run_of_keepsFault acts, fun s a rest _ => step_of_read, fun s rest _ hh => ?reset⟩
  case reset => exact step_of_write_ok hh (engineIssue_encode (i := .rst) rfl)

end Sys2Proof.Machine

/-! SUPPORT. The reset event's three causes as one step or one command (70_reset_and_hazards.md R230), and the statements of the reset family
settled from them and from the laws of `Engine.reset` (R231). -/

namespace Sys2Proof.Machine

section ResetEvent

variable {s : State} {rest : List HostAction}

/-- The reset input takes the engine to its reset state; the build and the host's remaining actions stay. -/
theorem step_of_reset (h : s.host = .reset :: rest) : step s = .next { s with host := rest, engine := Engine.reset s.variant } :=
  step_of_action h

/-- A reset that comes while a command is executing abandons the command: its word has no part in the outcome. -/
theorem step_of_resetDuring {w : Word16} (h : s.host = .resetDuring w :: rest) :
    step s = .next { s with host := rest, engine := Engine.reset s.variant } :=
  step_of_action h

/-- RST is accepted in every state, FAULT too, and is the reset event. -/
theorem exec_rst (s : State) : exec .rst s = .next { s with engine := Engine.reset s.variant } := exec_accepted rfl rfl

end ResetEvent

/-- Every bit of VP is set at reset. -/
theorem Engine.getLsbD_reset_vp (v : Variant) {i : Nat} (hi : i < v.width) : (Engine.reset v).vp.getLsbD i = true := by
  rw [Engine.reset_vp, BitVec.getLsbD_allOnes]
  exact decide_eq_true hi

/-! The obligations of the reset family. -/

/-- Settles O12: each cause of the reset event by its own law, ID_CFG as a constant of the build, and IDLE's acceptance of PBEGIN. -/
theorem resetEventGivesTheResetState : Obligations.ResetEventGivesTheResetState := by
  unfold Obligations.ResetEventGivesTheResetState
  refine ⟨fun s h rest hh hreset => ?input, exec_rst, fun v e => ?idCfg, fun v => ⟨Engine.reset_state v, fun policy ascii => rfl⟩⟩
  case input =>
    obtain rfl | ⟨w, rfl⟩ := hreset
    · exact step_of_reset hh
    · exact step_of_resetDuring hh
  case idCfg => exact e.readPort_idCfg.trans (Engine.reset v).readPort_idCfg.symm

/-- Settles O11: the cleared table entry by entry, VP bit by bit, and every other element as `Engine.reset` writes it. -/
theorem resetValues : Obligations.ResetValues := by
  unfold Obligations.ResetValues
  refine ⟨fun v => ?elements, State.resetOf_engine Config.variant⟩
  case elements =>
    exact ⟨Engine.peqRead_reset v, Engine.reset_len v, fun i => Engine.getLsbD_reset_vp v, Engine.reset_vn v, Engine.reset_count v,
      Engine.reset_dist v, Engine.reset_state v, Engine.reset_err v, Engine.reset_policy v, Engine.reset_ascii v,
      Engine.reset_pendNa v, Engine.reset_pendTl v, Engine.reset_faultCmd v⟩

end Sys2Proof.Machine

/-! SUPPORT. The invariant of the reachable states, update by update of the engine and command by command (10_state.md R27 to R33, 41_peq.md
R120), a step that always completes under it (70_reset_and_hazards.md R239), and the statements settled from them. -/

namespace Sys2Proof.Machine

/-! The recurrence keeps the two deltas apart (43_recurrence.md R161). -/

section Disjoint

variable {v : Variant} {eq vp vn : BitVec v.width} {i : Nat}

/-- No position of a row is both a positive and a negative horizontal delta, when none of the column is a vertical one. -/
theorem getLsbD_shifted_disjoint (h : vp &&& vn = 0) (hi : i < v.width) :
    ((recurrence v eq vp vn).hnShifted.getLsbD i && (recurrence v eq vp vn).hpShifted.getLsbD i) = false := by
  cases i with
  | zero => rw [RecurrenceTrace.getLsbD_hnShifted_zero, Bool.false_and]
  | succ i =>
    have hbit : (vp.getLsbD i && vn.getLsbD i) = false := by rw [← BitVec.getLsbD_and, h]; exact BitVec.getLsbD_zero
    rw [RecurrenceTrace.getLsbD_hnShifted_succ _ hi, getLsbD_recurrence_hpShifted_succ hi, getLsbD_recurrence_hn,
      getLsbD_recurrence_hp (Nat.lt_of_succ_lt hi)]
    revert hbit
    cases vp.getLsbD i <;> cases vn.getLsbD i <;> simp

/-- VP' and VN' are disjoint when VP and VN are: a bit of both would be a bit of both shifted deltas. -/
theorem recurrence_disjoint (h : vp &&& vn = 0) : (recurrence v eq vp vn).vp &&& (recurrence v eq vp vn).vn = 0 := by
  apply BitVec.eq_of_getLsbD_eq
  intro i hi
  have hshifted := getLsbD_shifted_disjoint (eq := eq) h hi
  rw [BitVec.getLsbD_and, getLsbD_recurrence_vp hi, getLsbD_recurrence_vn]
  revert hshifted
  cases (recurrence v eq vp vn).hnShifted.getLsbD i <;> cases (recurrence v eq vp vn).hpShifted.getLsbD i <;>
    cases eq.getLsbD i || vn.getLsbD i <;> simp

end Disjoint

/-! The updates of the engine keep the invariant. -/

section Updates

variable {v : Variant} {e : Engine v}

/-- The reset state meets the invariant (70_reset_and_hazards.md R231). -/
theorem Engine.reset_inv (v : Variant) : (Engine.reset v).Inv where
  lenBound := Nat.zero_le _
  peqAboveLen c i _ := by rw [Engine.peqRead_reset]; exact BitVec.getLsbD_zero
  peqOneEntry i hi := absurd hi (Nat.not_lt_zero i)
  deltasDisjoint := BitVec.and_zero
  idleEmpty _ := rfl
  notStarted _ := ⟨rfl, rfl, rfl⟩
  distOnlyDone _ _ := rfl
  errNone _ _ := rfl
  errIdle _ := .inl rfl
  errFault hs := nomatch hs
  pendingOnlyInBuild _ _ := ⟨rfl, rfl⟩
  pendTlFull ht := nomatch ht
  pendNaAscii hn := nomatch hn
  faultCmdOnlyInFault _ := rfl

/-- A fault keeps every element but STATE, ERR and FAULT_CMD (60_exceptions.md R207). -/
theorem Engine.Inv.raiseFault (h : e.Inv) {code : ErrCode} (hc : code ≠ .none) (w : Word16) : (e.raiseFault code w).Inv := {
  h with
  idleEmpty := nofun
  notStarted := by rintro (hs | hs | hs) <;> cases hs
  distOnlyDone := fun _ hf => absurd rfl hf
  errNone := fun _ hf => absurd rfl hf
  errIdle := nofun
  errFault := fun _ => hc
  pendingOnlyInBuild := fun _ hf => absurd rfl hf
  faultCmdOnlyInFault := fun hf => absurd rfl hf }

/-- PBEGIN starts an empty table (41_peq.md R123); outside FAULT, FAULT_CMD is still zero. -/
theorem Engine.Inv.startBuild (h : e.Inv) (hf : e.state ≠ .fault) (policy ascii : Bool) : (e.startBuild policy ascii).Inv := {
  Engine.reset_inv v with
  idleEmpty := nofun
  notStarted := fun _ => ⟨rfl, rfl, rfl⟩
  distOnlyDone := fun _ _ => rfl
  errNone := fun _ _ => rfl
  pendingOnlyInBuild := fun hs => absurd rfl hs
  pendNaAscii := nofun
  errIdle := nofun
  errFault := nofun
  faultCmdOnlyInFault := fun _ => h.faultCmdOnlyInFault hf }

/-- The recoverable report empties the table and returns to IDLE with a construction error (60_exceptions.md R208). -/
theorem Engine.Inv.raiseError (h : e.Inv) (hs : e.state = .build) {code : ErrCode}
    (hc : code = .patternTooLong ∨ code = .nonAscii) : (e.raiseError code).Inv := {
  Engine.reset_inv v with
  deltasDisjoint := h.deltasDisjoint
  notStarted := fun _ => h.notStarted (.inr (.inl hs))
  distOnlyDone := fun _ _ => h.distOnlyDone (by simp [hs]) (by simp [hs])
  errNone := fun hi => absurd rfl hi
  errIdle := fun _ => .inr hc
  errFault := nofun
  pendNaAscii := nofun
  faultCmdOnlyInFault := fun _ => h.faultCmdOnlyInFault (by simp [hs]) }

/-- PPUSH sets PEND_NA only under ASCII (10_state.md R32). -/
theorem Engine.pendNaAfter_ascii (h : e.Inv) {b : Byte} (hn : e.pendNaAfter b = true) : e.ascii = true := by
  rw [Engine.pendNaAfter, Bool.or_eq_true, Bool.and_eq_true] at hn
  exact hn.elim h.pendNaAscii And.left

/-- PPUSH below W gives position LEN to one entry (41_peq.md R120, R124). -/
theorem Engine.Inv.pushBelow (h : e.Inv) (hs : e.state = .build) (b : Byte) (hl : e.len.toNat < v.width) :
    ({ e.peqWrite b (e.peqRead b ||| (1#v.width <<< e.len.toNat)) with
      len := e.len + 1, pendNa := e.pendNaAfter b } : Engine v).Inv := {
  h with
  lenBound := (len_succ_toNat hl).trans_le hl
  peqAboveLen := fun c i hi => by
    have hi : e.len.toNat + 1 ≤ i := (len_succ_toNat hl).symm.trans_le hi
    refine (Engine.getLsbD_peqRead_setBit b c i hl).trans ?_
    rw [h.peqAboveLen c i (by omega), decide_eq_false (by omega : ¬ i = e.len.toNat), Bool.and_false, Bool.or_false]
  peqOneEntry := fun i hi => by
    have hi : i < e.len.toNat + 1 := hi.trans_eq (len_succ_toNat hl)
    obtain hlt | rfl : i < e.len.toNat ∨ i = e.len.toNat := by omega
    · obtain ⟨c, hc⟩ := h.peqOneEntry i hlt
      refine ⟨c, fun c' => (Engine.getLsbD_peqRead_setBit b c' i hl).trans ?_⟩
      rw [hc, decide_eq_false (Nat.ne_of_lt hlt), Bool.and_false, Bool.or_false]
    · refine ⟨b, fun c' => (Engine.getLsbD_peqRead_setBit b c' _ hl).trans ?_⟩
      rw [h.peqAboveLen c' _ (Nat.le_refl _), decide_eq_true rfl, Bool.and_true, Bool.false_or]
  idleEmpty := fun hi => nomatch hs.symm.trans hi
  pendingOnlyInBuild := fun hb => absurd hs hb
  pendTlFull := fun ht => absurd (h.pendTlFull ht) (Nat.ne_of_lt hl)
  pendNaAscii := Engine.pendNaAfter_ascii h }

/-- PPUSH at W leaves the table and tells of it in PEND_TL (41_peq.md R124). -/
theorem Engine.Inv.pushFull (h : e.Inv) (hs : e.state = .build) (b : Byte) (hl : v.width ≤ e.len.toNat) :
    ({ e with pendNa := e.pendNaAfter b, pendTl := true } : Engine v).Inv := {
  h with
  pendingOnlyInBuild := fun hb => absurd hs hb
  pendTlFull := fun _ => Nat.le_antisymm h.lenBound hl
  pendNaAscii := Engine.pendNaAfter_ascii h }

/-- A construction with no pending flag freezes (41_peq.md R125). -/
theorem Engine.Inv.freeze (h : e.Inv) (hs : e.state = .build) (hna : e.pendNa = false) (htl : e.pendTl = false) :
    ({ e with state := .ready } : Engine v).Inv := {
  h with
  idleEmpty := nofun
  notStarted := fun _ => h.notStarted (.inr (.inl hs))
  distOnlyDone := fun _ _ => h.distOnlyDone (by simp [hs]) (by simp [hs])
  errNone := fun _ _ => h.errNone (by simp [hs]) (by simp [hs])
  errIdle := nofun
  errFault := nofun
  pendingOnlyInBuild := fun _ _ => ⟨hna, htl⟩
  faultCmdOnlyInFault := fun _ => h.faultCmdOnlyInFault (by simp [hs]) }

/-- The three ends of a construction (41_peq.md R125). -/
theorem Engine.Inv.endBuild (h : e.Inv) (hs : e.state = .build) (w : Word16) : (e.endBuild w).Inv := by
  obtain ⟨hna, htl, hr⟩ | ⟨code, herr, -, hr⟩ | ⟨code, herr, -, hr⟩ := e.endBuild_cases w
  · rw [hr]; exact h.freeze hs hna htl
  · rw [hr]; exact h.raiseFault (Engine.pendingError_ne herr).1 w
  · rw [hr]
    refine h.raiseError hs ?_
    obtain ⟨-, hcode⟩ | ⟨-, -, hcode⟩ := Engine.pendingError_some herr
    · exact .inr hcode
    · exact .inl hcode

/-- TBEGIN starts a run on the frozen table (43_recurrence.md R164). -/
theorem Engine.Inv.startRun (h : e.Inv) (hq : e.state = .ready ∨ e.state = .run ∨ e.state = .done) : e.startRun.Inv := by
  have ⟨hidle, hbuild, hfault⟩ : e.state ≠ .idle ∧ e.state ≠ .build ∧ e.state ≠ .fault := by
    obtain hq | hq | hq := hq <;> simp [hq]
  exact {
    h with
    deltasDisjoint := BitVec.and_zero
    idleEmpty := nofun
    notStarted := fun _ => ⟨rfl, rfl, rfl⟩
    distOnlyDone := fun _ _ => rfl
    errNone := fun _ _ => h.errNone hidle hfault
    errIdle := nofun
    errFault := nofun
    pendingOnlyInBuild := fun _ _ => h.pendingOnlyInBuild hbuild hfault
    faultCmdOnlyInFault := fun _ => h.faultCmdOnlyInFault hfault }

/-- TSTEP below the last count (43_recurrence.md R165). -/
theorem Engine.Inv.advance (h : e.Inv) (hs : e.state = .run) (b : Byte) : (e.advance b).Inv := {
  h with
  deltasDisjoint := recurrence_disjoint h.deltasDisjoint
  notStarted := fun hq => by
    have hq : e.state = .idle ∨ e.state = .build ∨ e.state = .ready := hq
    simp [hs] at hq }

/-- TSTEP (43_recurrence.md R165). -/
theorem Engine.Inv.consume (h : e.Inv) (hs : e.state = .run) (w : Word16) (b : Byte) : (e.consume w b).Inv := by
  by_cases hc : e.count = BitVec.allOnes 64
  · rw [Engine.consume_overflow w b hc]; exact h.raiseFault (by decide) w
  · rw [Engine.consume_below w b hc]; exact h.advance hs b

/-- TEND (43_recurrence.md R166): DIST is written on the way into DONE. -/
theorem Engine.Inv.finish (h : e.Inv) (hs : e.state = .run) : e.finish.Inv := {
  h with
  idleEmpty := nofun
  notStarted := by rintro (hq | hq | hq) <;> cases hq
  distOnlyDone := fun hd => absurd rfl hd
  errNone := fun _ _ => h.errNone (by simp [hs]) (by simp [hs])
  errIdle := nofun
  errFault := nofun
  pendingOnlyInBuild := fun _ _ => h.pendingOnlyInBuild (by simp [hs]) (by simp [hs])
  faultCmdOnlyInFault := fun _ => h.faultCmdOnlyInFault (by simp [hs]) }

end Updates

/-! Commands, words and steps keep the invariant and complete. -/

section Steps

variable {v : Variant} {e e' : Engine v} {i : Instr} {s t : State}

/-- An accepted command keeps the invariant. -/
theorem Engine.Inv.effect (h : e.Inv) (ha : acceptedIn i e.state = true) (he : effect v i e = .ok e') : e'.Inv := by
  cases i with
  | nop => cases he; exact h
  | rst => cases he; exact Engine.reset_inv v
  | pbegin policy ascii => cases he; exact h.startBuild (bne_iff_ne.mp ha) policy ascii
  | ppush b =>
    have hs : e.state = .build := beq_iff_eq.mp ha
    have he : e.pushByte b = .ok e' := he
    by_cases hl : e.len.toNat < v.width
    · rw [Engine.pushByte_below b hl] at he; cases he; exact h.pushBelow hs b hl
    · rw [Engine.pushByte_full b (Nat.not_lt.mp hl)] at he; cases he; exact h.pushFull hs b (Nat.not_lt.mp hl)
  | pend => cases he; exact h.endBuild (beq_iff_eq.mp ha) _
  | tbegin => cases he; exact h.startRun (acceptedIn_tbegin.mp ha)
  | tstep b => cases he; exact h.consume (beq_iff_eq.mp ha) _ b
  | tend => cases (Engine.extract_eq h.lenBound).symm.trans he; exact h.finish (beq_iff_eq.mp ha)

/-- So does a command that is discarded or raises SEQUENCE. -/
theorem Engine.Inv.gated_effect (h : e.Inv) (he : gated i (Machine.effect v i) e = .ok e') : e'.Inv := by
  obtain ⟨ha, hr⟩ | ⟨-, -, hr⟩ | ⟨-, -, hr⟩ := gated_cases he
  · exact h.effect ha hr.symm
  · cases hr; exact h
  · cases hr; exact h.raiseFault (by decide) _

/-- Every step of the machine keeps the invariant of its engine. -/
theorem State.Inv.step (h : s.Inv) (hstep : step s = .next t) : t.Inv := by
  obtain ⟨-, rfl⟩ | ⟨a, rest, -, ⟨w, i, e, -, -, he, rfl⟩ | ⟨w, d, -, -, -, rfl⟩ | ⟨w, d, -, -, -, rfl⟩ | ⟨r, -, rfl⟩ | ⟨-, rfl⟩ |
    ⟨-, rfl⟩⟩ := step_cases hstep
  · exact h -- no action
  · exact Engine.Inv.gated_effect h he -- a legal word
  · exact h -- an illegal word in FAULT
  · exact Engine.Inv.raiseFault h (by decide) w -- an illegal word elsewhere
  · exact h -- a read
  · exact Engine.reset_inv s.variant -- the reset input
  · exact h -- idling

/-- Every written word completes while LEN is in its range (70_reset_and_hazards.md R239). -/
theorem engineIssue_ok (w : Word16) (h : e.len.toNat ≤ v.width) : ∃ e', engineIssue w e = .ok e' := by
  cases hd : decode w with
  | ok i => rw [engineIssue_legal hd]; exact gated_ok (effect_ok i h)
  | error d =>
    rw [engineIssue, hd]
    by_cases hf : e.state = .fault
    · exact ⟨_, if_pos hf⟩
    · exact ⟨_, if_neg hf⟩

/-- Under the invariant every step answers a next state. -/
theorem State.Inv.step_ok (h : s.Inv) : ∃ t, Machine.step s = .next t := by
  cases hh : s.host with
  | nil => exact ⟨s, step_of_no_action hh⟩
  | cons a rest =>
    cases a with
    | write w =>
      obtain ⟨e, he⟩ := engineIssue_ok w h.lenBound
      exact ⟨_, step_of_write_ok hh he⟩
    | read r => exact ⟨_, step_of_action hh⟩
    | reset => exact ⟨_, step_of_action hh⟩
    | resetDuring w => exact ⟨_, step_of_action hh⟩
    | idle => exact ⟨_, step_of_action hh⟩

end Steps

/-! The obligations of the invariant. -/

/-- Settles O33, command by command and action by action. -/
theorem everyStepKeepsTheInvariant : Obligations.EveryStepKeepsTheInvariant := by
  unfold Obligations.EveryStepKeepsTheInvariant
  exact fun s t => State.Inv.step

/-- Settles O31, by induction on the number of steps: each completes under the invariant and keeps it. -/
theorem noRunReachesAnUndefinedCase : Obligations.NoRunReachesAnUndefinedCase := by
  unfold Obligations.NoRunReachesAnUndefinedCase
  intro n
  induction n with
  | zero => exact fun s _ => ⟨s, rfl⟩
  | succ n ih =>
    intro s h
    obtain ⟨t, hstep⟩ := h.step_ok
    obtain ⟨u, hrun⟩ := ih t (h.step hstep)
    exact ⟨u, (run_succ_next hstep).trans hrun⟩

/-- Settles O34, by the reset values. -/
theorem resetMeetsTheInvariant : Obligations.ResetMeetsTheInvariant := by
  unfold Obligations.ResetMeetsTheInvariant
  exact ⟨Engine.reset_inv, Engine.reset_inv Config.variant⟩

end Sys2Proof.Machine

/-! SUPPORT. Two engines of one build or of two that agree below a bit: every update and every command keeps the agreement (43_recurrence.md
R169 to R171), and the statements settled from that. -/

namespace Sys2Proof.Machine

section Agreement

variable {v v' : Variant} {e : Engine v} {e' : Engine v'} {k : Nat}

/-- The reset states agree below both widths. -/
theorem Engine.reset_agree (hk : k ≤ v.width) (hk' : k ≤ v'.width) :
    Engine.AgreesBelow k (Engine.reset v) (Engine.reset v') where
  peq c i _ := by simp
  vp i hi := by simp [Nat.lt_of_lt_of_le hi hk, Nat.lt_of_lt_of_le hi hk']
  vn i _ := by simp
  len := rfl
  count := rfl
  dist := rfl
  state := rfl
  err := rfl
  policy := rfl
  ascii := rfl
  pendNa := rfl
  pendTl := rfl
  faultCmd := rfl

theorem Engine.AgreesBelow.raiseFault (h : Engine.AgreesBelow k e e') (code : ErrCode) (w : Word16) :
    Engine.AgreesBelow k (e.raiseFault code w) (e'.raiseFault code w) :=
  { h with state := rfl, err := rfl, faultCmd := rfl }

theorem Engine.AgreesBelow.raiseError (h : Engine.AgreesBelow k e e') (code : ErrCode) :
    Engine.AgreesBelow k (e.raiseError code) (e'.raiseError code) :=
  { h with peq := by simp, len := rfl, pendNa := rfl, pendTl := rfl, err := rfl, state := rfl }

/-- PBEGIN writes every element but FAULT_CMD. -/
theorem Engine.AgreesBelow.startBuild (h : Engine.AgreesBelow k e e') (hk : k ≤ v.width) (hk' : k ≤ v'.width) (policy ascii : Bool) :
    Engine.AgreesBelow k (e.startBuild policy ascii) (e'.startBuild policy ascii) :=
  { Engine.reset_agree hk hk' with state := rfl, policy := rfl, ascii := rfl, faultCmd := h.faultCmd }

theorem Engine.AgreesBelow.pendNaAfter (h : Engine.AgreesBelow k e e') (b : Byte) : e.pendNaAfter b = e'.pendNaAfter b := by
  rw [Engine.pendNaAfter, Engine.pendNaAfter, h.pendNa, h.ascii]

/-- PPUSH below both widths sets the same bit of the same entry. -/
theorem Engine.AgreesBelow.pushByte (h : Engine.AgreesBelow k e e') (b : Byte) (hl : e.len.toNat < v.width)
    (hl' : e.len.toNat < v'.width) :
    ∃ e₁ e₁', e.pushByte b = .ok e₁ ∧ e'.pushByte b = .ok e₁' ∧ Engine.AgreesBelow k e₁ e₁' := by
  rw [h.len] at hl'
  refine ⟨_, _, Engine.pushByte_below b hl, Engine.pushByte_below b hl', { h with peq := ?peq, len := ?len, pendNa := ?pendNa }⟩
  case peq =>
    intro c i hi
    refine (Engine.getLsbD_peqRead_setBit b c i hl).trans (.trans ?_ (Engine.getLsbD_peqRead_setBit b c i hl').symm)
    rw [h.peq c i hi, h.len]
  case len => exact congrArg (· + 1) h.len
  case pendNa => exact h.pendNaAfter b

theorem Engine.AgreesBelow.pendingError (h : Engine.AgreesBelow k e e') : e.pendingError = e'.pendingError := by
  rw [Engine.pendingError, Engine.pendingError, h.pendNa, h.pendTl]

/-- A construction ends in the same way on both. -/
theorem Engine.AgreesBelow.endBuild (h : Engine.AgreesBelow k e e') (w : Word16) :
    Engine.AgreesBelow k (e.endBuild w) (e'.endBuild w) := by
  unfold Engine.endBuild
  rw [h.pendingError]
  cases e'.pendingError with
  | none => exact { h with state := rfl }
  | some code =>
    rw [h.policy]
    cases e'.policy with
    | true => exact h.raiseError code
    | false => exact h.raiseFault code w

/-- TBEGIN sets every bit of VP and clears VN on both. -/
theorem Engine.AgreesBelow.startRun (h : Engine.AgreesBelow k e e') (hk : k ≤ v.width) (hk' : k ≤ v'.width) :
    Engine.AgreesBelow k e.startRun e'.startRun :=
  { h with
    vp := (Engine.reset_agree hk hk').vp, vn := (Engine.reset_agree hk hk').vn, count := rfl, dist := rfl, state := rfl }

/-- Information flows only upward, so a step keeps the agreement (43_recurrence.md R170). -/
theorem Engine.AgreesBelow.advance (h : Engine.AgreesBelow k e e') (hk : k ≤ v.width) (hk' : k ≤ v'.width) (b : Byte) :
    Engine.AgreesBelow k (e.advance b) (e'.advance b) := by
  have hdeltas := recurrence_agree hk hk' fun i hi => ⟨h.peq b i hi, h.vp i hi, h.vn i hi⟩
  exact { h with
    vp := fun i hi => (hdeltas i hi).1, vn := fun i hi => (hdeltas i hi).2, count := congrArg (· + 1) h.count }

/-- TSTEP overflows on both or on neither. -/
theorem Engine.AgreesBelow.consume (h : Engine.AgreesBelow k e e') (hk : k ≤ v.width) (hk' : k ≤ v'.width) (w : Word16) (b : Byte) :
    Engine.AgreesBelow k (e.consume w b) (e'.consume w b) := by
  by_cases hc : e.count = BitVec.allOnes 64
  · rw [Engine.consume_overflow w b hc, Engine.consume_overflow w b (h.count ▸ hc)]
    exact h.raiseFault .countOverflow w
  · rw [Engine.consume_below w b hc, Engine.consume_below w b (h.count ▸ hc)]
    exact h.advance hk hk' b

/-- TEND counts only bits below LEN, so engines that agree there write one distance (43_recurrence.md R171). -/
theorem Engine.AgreesBelow.finish (h : Engine.AgreesBelow k e e') (hlen : e.len.toNat ≤ k) :
    Engine.AgreesBelow k e.finish e'.finish := by
  have hvp : countBits e.vp e.len.toNat = countBits e'.vp e.len.toNat :=
    countBits_congr fun i hi => h.vp i (Nat.lt_of_lt_of_le hi hlen)
  have hvn : countBits e.vn e.len.toNat = countBits e'.vn e.len.toNat :=
    countBits_congr fun i hi => h.vn i (Nat.lt_of_lt_of_le hi hlen)
  have hdist : e.distance = e'.distance := by
    rw [Engine.distance, Engine.distance, hvp, hvn, h.len, h.count]
  exact { h with dist := hdist, state := rfl }

/-- Every accepted command completes on both engines and keeps the agreement, but for the PPUSH that one of the two may have no room for. -/
theorem Engine.AgreesBelow.effect (h : Engine.AgreesBelow k e e') (hk : k ≤ v.width) (hk' : k ≤ v'.width) (hlen : e.len.toNat ≤ k)
    (i : Instr) (hpush : (∃ b, i = .ppush b) → e.len.toNat < k) :
    ∃ e₁ e₁', effect v i e = .ok e₁ ∧ effect v' i e' = .ok e₁' ∧ Engine.AgreesBelow k e₁ e₁' := by
  cases i with
  | nop => exact ⟨_, _, rfl, rfl, h⟩
  | rst => exact ⟨_, _, rfl, rfl, Engine.reset_agree hk hk'⟩
  | pbegin policy ascii => exact ⟨_, _, rfl, rfl, h.startBuild hk hk' policy ascii⟩
  | ppush b =>
    have hl : e.len.toNat < k := hpush ⟨b, rfl⟩
    exact h.pushByte b (Nat.lt_of_lt_of_le hl hk) (Nat.lt_of_lt_of_le hl hk')
  | pend => exact ⟨_, _, rfl, rfl, h.endBuild _⟩
  | tbegin => exact ⟨_, _, rfl, rfl, h.startRun hk hk'⟩
  | tstep b => exact ⟨_, _, rfl, rfl, h.consume hk hk' _ b⟩
  | tend =>
    have hlen' : e'.len.toNat ≤ k := h.len ▸ hlen
    exact ⟨_, _, Engine.extract_eq (hlen.trans hk), Engine.extract_eq (hlen'.trans hk'), h.finish hlen⟩

/-- Accepted or not, a command does the same on both: acceptance looks at STATE alone. -/
theorem Engine.AgreesBelow.gated_effect (h : Engine.AgreesBelow k e e') (hk : k ≤ v.width) (hk' : k ≤ v'.width)
    (hlen : e.len.toNat ≤ k) (i : Instr) (hpush : (∃ b, i = .ppush b) → e.state = .build → e.len.toNat < k) :
    ∃ e₁ e₁', gated i (Machine.effect v i) e = .ok e₁ ∧ gated i (Machine.effect v' i) e' = .ok e₁' ∧ Engine.AgreesBelow k e₁ e₁' := by
  cases ha : acceptedIn i e.state with
  | true =>
    rw [gated_accepted ha, gated_accepted (h.state ▸ ha)]
    refine h.effect hk hk' hlen i fun hi => hpush hi ?_
    obtain ⟨b, rfl⟩ := hi
    exact beq_iff_eq.mp ha
  | false =>
    have ha' : acceptedIn i e'.state = false := h.state ▸ ha
    by_cases hf : e.state = .fault
    · exact ⟨_, _, gated_discarded ha hf, gated_discarded ha' (h.state ▸ hf), h⟩
    · exact ⟨_, _, gated_sequence ha hf, gated_sequence ha' (h.state ▸ hf), h.raiseFault .sequence _⟩

end Agreement

/-- Two machines whose engines agree complete a command in agreement. -/
theorem exec_agree {s s' : State} {k : Nat} (h : Engine.AgreesBelow k s.engine s'.engine) (hk : k ≤ s.variant.width)
    (hk' : k ≤ s'.variant.width) (hlen : s.engine.len.toNat ≤ k) (i : Instr)
    (hpush : (∃ b, i = .ppush b) → s.engine.state = .build → s.engine.len.toNat < k) :
    ∃ (e : Engine s.variant) (e' : Engine s'.variant),
      exec i s = .next { s with engine := e } ∧ exec i s' = .next { s' with engine := e' } ∧ Engine.AgreesBelow k e e' := by
  obtain ⟨e, e', he, he', hagree⟩ := h.gated_effect hk hk' hlen i hpush
  exact ⟨e, e', exec_next_engine.mpr he, exec_next_engine.mpr he', hagree⟩

/-! The obligations about two engines. -/

/-- Settles O56: agreement below bit 64 is kept by every command. -/
theorem backendsAgreeOnEveryCommand : Obligations.BackendsAgreeOnEveryCommand := by
  unfold Obligations.BackendsAgreeOnEveryCommand
  intro s s' i hv hv' h hlen hpush
  exact exec_agree h (by rw [hv]; decide) (by rw [hv']; decide) hlen i hpush

/-- Settles O55: agreement below LEN is kept by TEND, which writes DIST, and by TSTEP. -/
theorem paddingBitsNeverAffectTheDistance : Obligations.PaddingBitsNeverAffectTheDistance := by
  unfold Obligations.PaddingBitsNeverAffectTheDistance
  intro s s' h hs hlen hlen'
  refine ⟨?tend, fun b => exec_agree h hlen hlen' (Nat.le_refl _) (.tstep b) nofun⟩
  case tend =>
    obtain ⟨e, e', he, he', hagree⟩ := exec_agree h hlen hlen' (Nat.le_refl _) .tend nofun
    exact ⟨e, e', he, he', (exec_state he).trans (Engine.tableState_tend hs), hagree.dist⟩

end Sys2Proof.Machine

/-! SUPPORT. The legal words as fields, as words and as rows of opcode_table.json (30_encoding.md R80 to R85), the step of a legal word, and the
statements about the encoding and about one step settled from them. -/

namespace Sys2Proof

/-! Legal fields (30_encoding.md R82). -/

/-- R82's three clauses on the fields. -/
theorem F16.wellFormed_iff (f : F16) :
    f.wellFormed = true ↔
      ((f.op = 0x0 ∨ f.op = 0x1 ∨ f.op = 0x4 ∨ f.op = 0x5 ∨ f.op = 0x7) ∧ f.flags = 0 ∧ f.byte = 0) ∨
      (f.op = 0x2 ∧ f.flags.extractLsb' 2 2 = 0 ∧ f.byte = 0) ∨
      ((f.op = 0x3 ∨ f.op = 0x6) ∧ f.flags = 0) := by
  unfold F16.wellFormed
  split
  · next hop =>
    have h2 : ¬ f.op = 0x2 := by rintro h; rw [h] at hop; revert hop; decide
    have h36 : ¬ (f.op = 0x3 ∨ f.op = 0x6) := by rintro (h | h) <;> rw [h] at hop <;> revert hop <;> decide
    simp only [F16.noOperand, Bool.and_eq_true, beq_iff_eq, hop, h2, h36, true_and, false_and, or_false]
  · next hop =>
    split
    · next h2 => simp [F16.policyFlagsOnly, h2]
    · next h2 =>
      split
      · next h36 => simp only [F16.byteOnly, beq_iff_eq, hop, h2, h36, true_and, false_and, false_or]
      · next h36 => simp only [hop, h2, h36, false_and, or_self, Bool.false_eq_true]

/-- The reserved flags are the upper half of the FLAGS field (30_encoding.md R83). -/
theorem reserved_zero_of_upper_zero : ∀ x : BitVec 4, x.extractLsb' 2 2 = 0 → ¬ (x.getLsbD 2 || x.getLsbD 3) = true := by
  decide

/-- Legal fields are the fields of a command. -/
theorem exists_toF16_of_wellFormed {f : F16} (h : f.wellFormed = true) : ∃ i : Instr, i.toF16 = f := by
  obtain ⟨op, flags, byte⟩ := f
  obtain ⟨hop, rfl, rfl⟩ | ⟨rfl, hflags, rfl⟩ | ⟨hop, rfl⟩ := (F16.wellFormed_iff _).mp h
  · obtain rfl | rfl | rfl | rfl | rfl := hop
    · exact ⟨.nop, rfl⟩
    · exact ⟨.rst, rfl⟩
    · exact ⟨.pend, rfl⟩
    · exact ⟨.tbegin, rfl⟩
    · exact ⟨.tend, rfl⟩
  · refine ⟨.pbegin (flags.getLsbD 0) (flags.getLsbD 1), ?_⟩
    rw [Instr.toF16, flags_eq_of_reserved_zero flags (reserved_zero_of_upper_zero flags hflags)]
  · obtain rfl | rfl := hop
    · exact ⟨.ppush byte, rfl⟩
    · exact ⟨.tstep byte, rfl⟩

/-- The legal words are the commands' words. -/
theorem legalWord_iff_encode {w : Word16} : legalWord w = true ↔ ∃ i, encode i = w := by
  constructor
  · intro h
    obtain ⟨i, hi⟩ := exists_toF16_of_wellFormed h
    exact ⟨i, by rw [encode, hi, F16.toWord_ofWord]⟩
  · rintro ⟨i, rfl⟩
    exact legalWord_of_decode (decode_encode i)

/-- The legal words are those that decode (30_encoding.md R86). -/
theorem legalWord_iff_decode {w : Word16} : legalWord w = true ↔ ∃ i, decode w = .ok i := by
  rw [legalWord_iff_encode]
  exact ⟨fun ⟨i, h⟩ => ⟨i, h ▸ decode_encode i⟩, fun ⟨i, h⟩ => ⟨i, encode_of_decode h⟩⟩

theorem encode_injective : Function.Injective encode := fun i j h =>
  Except.ok.inj ((decode_encode i).symm.trans ((congrArg decode h).trans (decode_encode j)))

/-! The fields as bits of the word (30_encoding.md R80). -/

/-- FLAGS and BYTE together are the low twelve bits. -/
theorem flags_append_byte (w : Word16) : w.extractLsb' 8 4 ++ w.extractLsb' 0 8 = w.extractLsb' 0 12 :=
  BitVec.extractLsb'_append_extractLsb'_eq_extractLsb' rfl

/-- Both are zero when the low twelve bits are. -/
theorem low_twelve_eq_zero_iff (w : Word16) : w.extractLsb' 0 12 = 0 ↔ w.extractLsb' 8 4 = 0 ∧ w.extractLsb' 0 8 = 0 := by
  rw [← flags_append_byte]
  constructor
  · intro h
    have hflags := congrArg (BitVec.extractLsb' 8 4) h
    have hbyte := congrArg (BitVec.extractLsb' 0 8) h
    rw [BitVec.extractLsb'_append_eq_left] at hflags
    rw [BitVec.extractLsb'_append_eq_right] at hbyte
    exact ⟨hflags, hbyte⟩
  · rintro ⟨hflags, hbyte⟩
    rw [hflags, hbyte]
    rfl

/-- R82's legality of a word, clause by clause. -/
theorem legalWord_iff_bits (w : Word16) :
    legalWord w = true ↔
      ((w.extractLsb' 12 4 = 0x0 ∨ w.extractLsb' 12 4 = 0x1 ∨ w.extractLsb' 12 4 = 0x4 ∨ w.extractLsb' 12 4 = 0x5 ∨
          w.extractLsb' 12 4 = 0x7) ∧ w.extractLsb' 0 12 = 0) ∨
        (w.extractLsb' 12 4 = 0x2 ∧ w.extractLsb' 10 2 = 0 ∧ w.extractLsb' 0 8 = 0) ∨
        ((w.extractLsb' 12 4 = 0x3 ∨ w.extractLsb' 12 4 = 0x6) ∧ w.extractLsb' 8 4 = 0) := by
  have hreserved : (w.extractLsb' 8 4).extractLsb' 2 2 = w.extractLsb' 10 2 := by
    apply BitVec.eq_of_getLsbD_eq
    intro i hi
    rw [BitVec.getLsbD_extractLsb', BitVec.getLsbD_extractLsb', BitVec.getLsbD_extractLsb', decide_eq_true (by omega : 2 + i < 4),
      Bool.true_and, ← Nat.add_assoc]
  rw [legalWord, F16.wellFormed_iff, low_twelve_eq_zero_iff, ← hreserved]
  rfl

/-! The list of the commands (30_encoding.md R82, 90_conflicts.md C10). -/

/-- Every byte, once. -/
def everyByte : List Byte := (List.finRange 256).map BitVec.ofFin

theorem mem_everyByte (b : Byte) : b ∈ everyByte := List.mem_map.mpr ⟨b.toFin, List.mem_finRange _, rfl⟩

theorem everyByte_nodup : everyByte.Nodup := (List.nodup_finRange 256).map fun _ _ h => congrArg BitVec.toFin h

@[simp] theorem everyByte_length : everyByte.length = 256 := by simp [everyByte]

/-- The nine commands without a byte operand. -/
def plainCommands : List Instr :=
  [.nop, .rst, .pbegin false false, .pbegin false true, .pbegin true false, .pbegin true true, .pend, .tbegin, .tend]

/-- Every command with every operand, once. -/
def everyCommand : List Instr := plainCommands ++ everyByte.map Instr.ppush ++ everyByte.map Instr.tstep

theorem mem_everyCommand (i : Instr) : i ∈ everyCommand := by
  have hbyte := mem_everyByte
  cases i with
  | pbegin policy ascii => cases policy <;> cases ascii <;> simp [everyCommand, plainCommands]
  | ppush b => simp [everyCommand, hbyte]
  | tstep b => simp [everyCommand, hbyte]
  | _ => simp [everyCommand, plainCommands]

theorem everyCommand_nodup : everyCommand.Nodup := by
  have hpush : (everyByte.map Instr.ppush).Nodup := everyByte_nodup.map fun _ _ => Instr.ppush.inj
  have hstep : (everyByte.map Instr.tstep).Nodup := everyByte_nodup.map fun _ _ => Instr.tstep.inj
  refine ((show plainCommands.Nodup by decide).append hpush ?_).append hstep ?_
  · simp [List.Disjoint, plainCommands]
  · simp [List.Disjoint, plainCommands]

theorem everyCommand_length : everyCommand.length = 521 := by
  simp [everyCommand, plainCommands]

/-! The rows of opcode_table.json. -/

/-- Masking a word masks its fields. -/
theorem F16.ofWord_and (w m : Word16) :
    F16.ofWord (w &&& m) =
      ⟨(F16.ofWord w).op &&& (F16.ofWord m).op, (F16.ofWord w).flags &&& (F16.ofWord m).flags,
        (F16.ofWord w).byte &&& (F16.ofWord m).byte⟩ := by
  simp [F16.ofWord, BitVec.extractLsb'_and]

/-- A row covers a word when the row's mask takes the fields of the one to the fields of the other. -/
theorem OpcodeRow.covers_iff {r : OpcodeRow} {w : Word16} :
    r.covers w = true ↔
      (F16.ofWord w).op &&& (F16.ofWord r.mask).op = (F16.ofWord r.bits).op ∧
      (F16.ofWord w).flags &&& (F16.ofWord r.mask).flags = (F16.ofWord r.bits).flags ∧
      (F16.ofWord w).byte &&& (F16.ofWord r.mask).byte = (F16.ofWord r.bits).byte := by
  have hfields : w &&& r.mask = r.bits ↔ F16.ofWord (w &&& r.mask) = F16.ofWord r.bits :=
    ⟨congrArg _, fun h => by rw [← F16.toWord_ofWord (w &&& r.mask), h, F16.toWord_ofWord]⟩
  rw [OpcodeRow.covers, beq_iff_eq, hfields, F16.ofWord_and]
  exact Iff.of_eq (F16.mk.injEq ..)

/-- A row that fixes every bit covers its own word alone. -/
theorem OpcodeRow.eq_bits_of_covers {r : OpcodeRow} {w : Word16} (hm : r.mask = 0xFFFF) (h : r.covers w = true) : w = r.bits := by
  rw [OpcodeRow.covers, hm, beq_iff_eq] at h
  exact BitVec.and_allOnes.symm.trans h

/-- A word that a row covers is legal: the masks leave free exactly the bits of the operands. -/
theorem legalWord_of_covers {r : OpcodeRow} {w : Word16} (hr : r ∈ opcodeTable) (h : r.covers w = true) : legalWord w = true := by
  have hplain (hm : r.mask = 0xFFFF) (hbits : legalWord r.bits = true) : legalWord w = true :=
    OpcodeRow.eq_bits_of_covers hm h ▸ hbits
  obtain ⟨hop, hflags, hbyte⟩ := OpcodeRow.covers_iff.mp h
  have hreserved : ∀ x : BitVec 4, x &&& 0xC = 0 → x.extractLsb' 2 2 = 0 := by decide
  have hlegal := (F16.wellFormed_iff (F16.ofWord w)).mpr
  simp only [opcodeTable, List.mem_cons, List.not_mem_nil, or_false] at hr
  obtain rfl | rfl | rfl | rfl | rfl | rfl | rfl | rfl := hr
  · exact hplain rfl rfl -- NOP
  · exact hplain rfl rfl -- RST
  · exact hlegal (.inr (.inl ⟨BitVec.and_allOnes.symm.trans hop, hreserved _ hflags, BitVec.and_allOnes.symm.trans hbyte⟩)) -- PBEGIN
  · exact hlegal (.inr (.inr ⟨.inl (BitVec.and_allOnes.symm.trans hop), BitVec.and_allOnes.symm.trans hflags⟩)) -- PPUSH
  · exact hplain rfl rfl -- PEND
  · exact hplain rfl rfl -- TBEGIN
  · exact hlegal (.inr (.inr ⟨.inr (BitVec.and_allOnes.symm.trans hop), BitVec.and_allOnes.symm.trans hflags⟩)) -- TSTEP
  · exact hplain rfl rfl -- TEND

/-- The row of a command's word is the one with its mnemonic, and no other. -/
theorem tableRow_encode (i : Instr) : (opcodeTable.filter fun r => r.covers (encode i)).map OpcodeRow.mnemonic = [i.mnemonic] := by
  cases i with
  | nop => exact Laws.TableRow.nop.2
  | rst => exact Laws.TableRow.rst.2
  | pbegin policy ascii => exact (Laws.TableRow.pbegin policy ascii).2
  | ppush b => exact (Laws.TableRow.ppush b).2
  | pend => exact Laws.TableRow.pend.2
  | tbegin => exact Laws.TableRow.tbegin.2
  | tstep b => exact (Laws.TableRow.tstep b).2
  | tend => exact Laws.TableRow.tend.2

/-! The obligations about the encoding. -/

/-- Settles O3: the fields of a word and of a command determine each other. -/
theorem decodeAndEncodeAreInverse : Obligations.DecodeAndEncodeAreInverse := by
  unfold Obligations.DecodeAndEncodeAreInverse
  exact ⟨fun i => ⟨wellFormed_toF16 i, decode_encode i⟩, fun w i => encode_of_decode⟩

/-- Settles O1: legal fields are those of a command, and R82's clauses on the fields are clauses on the word. -/
theorem wordsDecodeExactlyWhenLegal : Obligations.WordsDecodeExactlyWhenLegal := by
  unfold Obligations.WordsDecodeExactlyWhenLegal
  exact fun w => ⟨legalWord_iff_decode.symm.trans (legalWord_iff_bits w), legalWord_iff_decode⟩

/-- Settles O2: the words of the 521 commands, which differ since decoding tells them apart. -/
theorem legalWordsAre521 : Obligations.LegalWordsAre521 := by
  unfold Obligations.LegalWordsAre521
  refine ⟨everyCommand.map encode, everyCommand_nodup.map encode_injective, ?length, fun w => ?legal⟩
  case length => rw [List.length_map, everyCommand_length]
  case legal =>
    rw [legalWord_iff_encode, List.mem_map]
    exact ⟨fun ⟨i, _, h⟩ => ⟨i, h⟩, fun ⟨i, h⟩ => ⟨i, mem_everyCommand i, h⟩⟩

/-- Settles O4: a decoded word is its command's, whose row is known, and a word of some row is legal. -/
theorem decodeFollowsTheOpcodeTable : Obligations.DecodeFollowsTheOpcodeTable := by
  unfold Obligations.DecodeFollowsTheOpcodeTable
  refine fun w => ⟨fun i h => ?row, fun d h => List.filter_eq_nil_iff.mpr fun r hr hcovers => ?none⟩
  case row =>
    rw [← encode_of_decode h]
    exact tableRow_encode i
  case none =>
    obtain ⟨i, hi⟩ := legalWord_iff_decode.mp (legalWord_of_covers hr hcovers)
    cases h.symm.trans hi

/-- Settles O5, word by word. -/
theorem writtenOutWordsDecode : Obligations.WrittenOutWordsDecode := by
  unfold Obligations.WrittenOutWordsDecode
  decide

end Sys2Proof

namespace Sys2Proof.Machine

/-! What every command keeps, and the step of a legal word. -/

section Keeps

variable {v : Variant} {e e' : Engine v} {i : Instr} {s : State}

/-- The mode bits are written by PBEGIN and by reset alone (10_state.md R31). -/
theorem effect_keeps_mode (h : effect v i e = .ok e') (hrst : i ≠ .rst) (hpbegin : ∀ policy ascii, i ≠ .pbegin policy ascii) :
    e'.policy = e.policy ∧ e'.ascii = e.ascii := by
  obtain ⟨-, rfl⟩ | ⟨hi, -⟩ | ⟨policy, ascii, hi, -⟩ | ⟨_, -, ⟨-, rfl⟩ | ⟨-, rfl⟩⟩ |
    ⟨-, ⟨-, -, rfl⟩ | ⟨_, -, -, rfl⟩ | ⟨_, -, -, rfl⟩⟩ | ⟨-, rfl⟩ | ⟨_, -, ⟨-, rfl⟩ | ⟨-, rfl⟩⟩ | ⟨-, _, -, rfl⟩ := effect_cases h
  · exact ⟨rfl, rfl⟩ -- NOP
  · exact absurd hi hrst
  · exact absurd hi (hpbegin policy ascii)
  · exact ⟨rfl, rfl⟩ -- PPUSH below W
  · exact ⟨rfl, rfl⟩ -- PPUSH at W
  · exact ⟨rfl, rfl⟩ -- PEND with no pending flag
  · exact ⟨rfl, rfl⟩ -- PEND, trusted
  · exact ⟨rfl, rfl⟩ -- PEND, recoverable
  · exact ⟨rfl, rfl⟩ -- TBEGIN
  · exact ⟨rfl, rfl⟩ -- TSTEP at the last count
  · exact ⟨rfl, rfl⟩ -- TSTEP below it
  · exact ⟨rfl, rfl⟩ -- TEND

/-- A table word that decodes is a word that decodes. -/
theorem decode_of_decodeTableWord {nbits w : Nat} (h : decodeTableWord nbits w = some i) : decode (tableWord nbits w) = .ok i := by
  unfold decodeTableWord at h
  cases hd : decode (tableWord nbits w) with
  | ok j => rw [hd] at h; cases h; rfl
  | error d => rw [hd] at h; cases h

/-- TEND in RUN stops exactly outside the range of its mask (40_word.md R109). -/
theorem exec_tend_fault_iff (hs : s.engine.state = .run) :
    exec .tend s = .fault .preconditionViolated ↔ s.variant.width < s.engine.len.toNat := by
  have ha : acceptedIn .tend s.engine.state = true := beq_iff_eq.mpr hs
  constructor
  · intro h
    by_contra hlen
    rw [exec_accepted ha (Engine.extract_eq (Nat.not_lt.mp hlen))] at h
    cases h
  · intro hlen
    rw [exec_eq_effect]
    exact State.onEngine_error ((gated_accepted ha).trans (Engine.extract_error hlen))

end Keeps

/-! The obligations about one command and one step. -/

/-- Settles O19: a discarded command keeps the engine, SEQUENCE keeps the mode bits, and an accepted command is left to its effect. -/
theorem modeBitsHoldForTheConstruction : Obligations.ModeBitsHoldForTheConstruction := by
  unfold Obligations.ModeBitsHoldForTheConstruction
  intro i s t hexec hrst hpbegin
  obtain ⟨e, he, rfl⟩ := exec_next.mp hexec
  obtain ⟨-, hr⟩ | ⟨-, -, hr⟩ | ⟨-, -, hr⟩ := gated_cases he
  · exact effect_keeps_mode hr.symm hrst hpbegin
  · cases hr; exact ⟨rfl, rfl⟩
  · cases hr; exact ⟨rfl, rfl⟩

/-- Settles O10: each of the things a step can do leaves the build. -/
theorem variantNeverChanges : Obligations.VariantNeverChanges := by
  unfold Obligations.VariantNeverChanges
  intro s t hstep
  obtain ⟨-, rfl⟩ | ⟨a, rest, -, ⟨w, i, e, -, -, -, rfl⟩ | ⟨w, d, -, -, -, rfl⟩ | ⟨w, d, -, -, -, rfl⟩ | ⟨r, -, rfl⟩ | ⟨-, rfl⟩ |
    ⟨-, rfl⟩⟩ := step_cases hstep
  · rfl -- no action
  · rfl -- a legal word
  · rfl -- an illegal word in FAULT
  · rfl -- an illegal word elsewhere
  · rfl -- a read
  · rfl -- the reset input
  · rfl -- idling

/-- Settles O7: a legal word is issued as its command. -/
theorem stepRunsTheDecodedCommand : Obligations.StepRunsTheDecodedCommand := by
  unfold Obligations.StepRunsTheDecodedCommand
  refine ⟨fun s w rest i hh hd => ?written, fun s nbits w i hd => ?fetched⟩
  case written => exact (step_of_action hh).trans (issue_legal hd _)
  case fetched => exact (step_aboutToWrite s _).trans (issue_legal (decode_of_decodeTableWord hd) s)

/-- Settles O32: the mask of TEND has a value exactly for LEN up to W. -/
theorem tendStopsOnlyOutsideTheLengthRange : Obligations.TendStopsOnlyOutsideTheLengthRange := by
  unfold Obligations.TendStopsOnlyOutsideTheLengthRange
  exact fun s => exec_tend_fault_iff

end Sys2Proof.Machine

/-! SUPPORT. The edit distance of equal and of exchanged strings (00_scope.md R10), the run of the empty text, and the statements about whole
constructions and runs settled from the laws of a run. -/

namespace Sys2Proof.Machine

/-! The symmetries of the edit distance (43_recurrence.md R173). -/

/-- On the diagonal of equal strings every byte matches. -/
theorem editMatrix_self (p : List Byte) (i : Nat) : editMatrix p p i i = 0 := by
  induction i with
  | zero => rfl
  | succ i ih => rw [editMatrix_succ_succ, ih, if_pos rfl, Nat.add_zero, Nat.min_zero]

theorem lev_self (p : List Byte) : lev p p = 0 := editMatrix_self p p.length

/-- The matrix of the exchanged strings is the transposed one: the recurrence exchanges its upper and its left cell. -/
theorem editMatrix_comm (p t : List Byte) (i j : Nat) : editMatrix p t i j = editMatrix t p j i := by
  induction i generalizing j with
  | zero => rw [editMatrix_zero_left, editMatrix_zero_right]
  | succ i ih =>
    induction j with
    | zero => rw [editMatrix_zero_left, editMatrix_zero_right]
    | succ j ihj =>
      rw [editMatrix_succ_succ, editMatrix_succ_succ, ih (j + 1), ihj, ih j, Nat.min_comm (_ + 1)]
      simp only [eq_comm]

theorem lev_comm (p t : List Byte) : lev p t = lev t p := editMatrix_comm p t p.length t.length

/-! The sequence of a pattern and a text within the width. -/

section Sequence

variable {v : Variant} {e : Engine v} {p t : List Byte}

/-- A string within the width of some build is short enough to be a text. -/
theorem length_lt_of_le_width (h : t.length ≤ v.width) : t.length < 2 ^ 64 := by
  have := width_lt_len_range v
  omega

/-- `EDIT_DISTANCE P, T` ends with lev(P, T) as its DIST (43_recurrence.md R167). -/
theorem engineRun_editDistance_dist (hf : e.state ≠ .fault) (hp : p.length ≤ v.width) (ht : t.length < 2 ^ 64) :
    ∃ e' : Engine v, engineRun (editDistance p t) e = .ok e' ∧ e'.dist.toNat = lev p t := by
  obtain ⟨b, hb, hrun⟩ := engineRun_editDistance hf hp ht
  exact ⟨_, hrun, (hb.afterText ht).distance_toNat⟩

end Sequence

/-! A run with no text. -/

section EmptyText

variable {v : Variant} {e : Engine v}

theorem countBits_allOnes {w n : Nat} (h : n ≤ w) : countBits (BitVec.allOnes w) n = n := by
  induction n with
  | zero => rfl
  | succ n ih =>
    rw [countBits_succ, ih (Nat.le_of_succ_le h), BitVec.getLsbD_allOnes, decide_eq_true (show n < w from h)]
    rfl

theorem countBits_zero_word (w n : Nat) : countBits (0 : BitVec w) n = 0 := by
  induction n with
  | zero => rfl
  | succ n ih => rw [countBits_succ, ih]; simp

/-- Right after TBEGIN the distance is LEN: all bits of VP below LEN count and none of VN (43_recurrence.md R166). -/
theorem Engine.distance_startRun (h : e.len.toNat ≤ v.width) : e.startRun.distance.toNat = e.len.toNat := by
  have hsum : (e.startRun.count.toNat : Int) + countBits e.startRun.vp e.len.toNat - countBits e.startRun.vn e.len.toNat =
      (e.len.toNat : Int) := by
    rw [Engine.startRun_vp, Engine.startRun_vn, countBits_allOnes h, countBits_zero_word]; simp
  have hlt : e.len.toNat < 2 ^ 10 := e.len.isLt
  rw [Engine.distance, Engine.startRun_len, hsum, BitVec.ofInt_natCast, BitVec.toNat_ofNat, Nat.mod_eq_of_lt (by omega)]

end EmptyText

/-! A construction that fails. -/

section Failing

variable {v : Variant} {e : Engine v} {policy ascii : Bool} {p : List Byte} {code : ErrCode}

/-- The code a pushed pattern leaves pending (60_exceptions.md R201, R202, R211). -/
theorem Engine.HasPushed.pendingError (h : e.HasPushed policy ascii p)
    (hcode : (ascii = true ∧ ∃ b ∈ p, 0x80 ≤ b.toNat) ∧ code = .nonAscii ∨
      (ascii = true → ∀ b ∈ p, b.toNat < 0x80) ∧ v.width < p.length ∧ code = .patternTooLong) :
    e.pendingError = some code := by
  apply Engine.pendingError_of_flags
  obtain ⟨⟨rfl, b, hb, hhigh⟩, rfl⟩ | ⟨hascii, hlong, rfl⟩ := hcode
  · have hany : p.any nonAscii = true := List.any_eq_true.mpr ⟨b, hb, decide_eq_true hhigh⟩
    exact .inl ⟨by rw [h.pendNa, hany]; rfl, rfl⟩
  · exact .inr ⟨h.pendNa_false hascii, h.pendTl.trans (decide_eq_true hlong), rfl⟩

/-- Both policies record the code; FAULT or IDLE is the policy's (60_exceptions.md R206 to R208). -/
theorem Engine.endBuild_reports (w : Word16) (h : e.pendingError = some code) :
    (e.endBuild w).err = code ∧
    (e.policy = false → (e.endBuild w).state = .fault ∧ (e.endBuild w).faultCmd = w) ∧
    (e.policy = true → (e.endBuild w).state = .idle ∧ (e.endBuild w).len = 0 ∧ ∀ c, (e.endBuild w).peqRead c = 0) := by
  cases hp : e.policy with
  | false => rw [Engine.endBuild_trusted w h hp]; exact ⟨rfl, fun _ => ⟨rfl, rfl⟩, nofun⟩
  | true => rw [Engine.endBuild_recoverable w h hp]; exact ⟨rfl, nofun, fun _ => ⟨rfl, rfl, e.peqRead_raiseError code⟩⟩

end Failing

/-! The obligations about whole constructions and runs. -/

/-- Settles O49: the recurrence moves from one column of the matrix to the next. -/
theorem tstepAdvancesOneColumn : Obligations.TstepAdvancesOneColumn := by
  unfold Obligations.TstepAdvancesOneColumn
  intro s p t b h ht
  have ⟨hs, _, hcount, _⟩ := h
  have hbelow := Engine.consume_eq_advance (encode (.tstep b)) b (hcount.trans_lt ht)
  exact ⟨_, exec_accepted (beq_iff_eq.mpr hs) (congrArg Except.ok hbelow), h.advance ht b⟩

/-- Settles O54: the sequences end with lev, which is 0 on equal strings and symmetric. -/
theorem identityAndBothCallOrdersAgree : Obligations.IdentityAndBothCallOrdersAgree := by
  unfold Obligations.IdentityAndBothCallOrdersAgree
  intro s s' p t hf hf' hp ht
  constructor
  · obtain ⟨e, hrun, hdist⟩ := engineRun_editDistance_dist hf hp (length_lt_of_le_width hp)
    rw [lev_self] at hdist
    exact ⟨e, State.afterWords_eq hrun, BitVec.eq_of_toNat_eq hdist⟩
  · obtain ⟨e, hrun, hdist⟩ := engineRun_editDistance_dist hf hp (length_lt_of_le_width ht)
    obtain ⟨e', hrun', hdist'⟩ := engineRun_editDistance_dist hf' ht (length_lt_of_le_width hp)
    rw [lev_comm] at hdist'
    exact ⟨e, e', State.afterWords_eq hrun, State.afterWords_eq hrun', BitVec.eq_of_toNat_eq (hdist.trans hdist'.symm)⟩

/-- Settles O25: TEND right after TBEGIN. -/
theorem emptyTextGivesThePatternLength : Obligations.EmptyTextGivesThePatternLength := by
  unfold Obligations.EmptyTextGivesThePatternLength
  intro s hq hlen
  have hrun := engineRun_editDistanceWithPeq [] hq hlen (by decide)
  exact ⟨_, State.afterWords_eq hrun, rfl, Engine.distance_startRun hlen⟩

/-- Settles O46, by the table of the pushed pattern. -/
theorem constructionBuildsThePatternTable : Obligations.ConstructionBuildsThePatternTable := by
  unfold Obligations.ConstructionBuildsThePatternTable
  intro s policy ascii p hf hp hascii
  obtain ⟨b, hrun, hready, herr, hb⟩ := engineRun_construction_ready policy ascii hf hp hascii
  exact ⟨b, State.afterWords_eq hrun, hready, herr, hb⟩

/-- Settles O47: PEND reports the code that the pushed pattern left pending. -/
theorem failedConstructionReportsItsError : Obligations.FailedConstructionReportsItsError := by
  unfold Obligations.FailedConstructionReportsItsError
  intro s policy ascii p code hf hcode
  obtain ⟨b, hb, hrun⟩ := engineRun_construction policy ascii p hf
  have hreports := Engine.endBuild_reports (encode .pend) (hb.pendingError hcode)
  rw [hb.policy_eq] at hreports
  exact ⟨_, State.afterWords_eq hrun, hreports⟩

/-- Settles O48: the vertical differences of column 0 are all +1. -/
theorem tbeginGivesColumnZero : Obligations.TbeginGivesColumnZero := by
  unfold Obligations.TbeginGivesColumnZero
  exact fun s p hq h => ⟨_, exec_accepted (acceptedIn_tbegin.mpr hq) rfl, h.startRun⟩

end Sys2Proof.Machine

/-! SUPPORT. Numbers, character literals and string literals read back by the assembler (30_encoding.md R90, R92), and the statements about the
assembler settled from them. -/

namespace Sys2Proof.Machine

/-! Digits (30_encoding.md R90). -/

/-- The value of a text read on after another. -/
theorem digitsValue_append (base acc : Nat) (t u : List Char) :
    digitsValue base acc (t ++ u) = (digitsValue base acc t).bind fun n => digitsValue base n u := by
  induction t generalizing acc with
  | nil => rfl
  | cons c t ih =>
    rw [List.cons_append, digitsValue, digitsValue]
    cases digitValue base c with
    | some d => exact ih _
    | none => rfl

/-- A decimal digit reads back as its value. -/
theorem digitValue_ten_digitChar : ∀ d < 10, digitValue 10 (Nat.digitChar d) = some d := by decide

/-- An upper-case hexadecimal digit reads back as its value. -/
theorem digitValue_sixteen_digitChar : ∀ d < 16, digitValue 16 (Nat.digitChar d).toUpper = some d := by decide

/-- A decimal numeral reads back as its number: by its last digit and the numeral before it. -/
theorem digitsValue_toDigits (n : Nat) : digitsValue 10 0 (Nat.toDigits 10 n) = some n := by
  induction n using Nat.strongRecOn with
  | ind n ih =>
    by_cases hn : n < 10
    · rw [Nat.toDigits_of_lt_base hn, digitsValue, digitValue_ten_digitChar n hn]
      simp [digitsValue]
    · have hlast : n % 10 < 10 := Nat.mod_lt n (by decide)
      have hsplit : Nat.toDigits 10 n = Nat.toDigits 10 (n / 10) ++ [Nat.digitChar (n % 10)] := by
        rw [← Nat.toDigits_of_lt_base hlast, Nat.toDigits_append_toDigits (by decide) (by omega) hlast, Nat.div_add_mod]
      rw [hsplit, digitsValue_append, ih (n / 10) (by omega), Option.bind_some, digitsValue, digitValue_ten_digitChar _ hlast]
      simp only [digitsValue, Option.some.injEq]
      omega

/-- A numeral of a byte reads back as the byte. -/
theorem numberByte_of_digitsValue {base : Nat} {t : List Char} {b : Byte} (ht : t ≠ []) (h : digitsValue base 0 t = some b.toNat) :
    numberByte base t = some b := by
  have hb : b.toNat ≤ 255 := Nat.le_of_lt_succ b.isLt
  rw [numberByte, h, if_neg (by simpa using ht)]
  simp [hb]

theorem numberByte_toDigits (b : Byte) : numberByte 10 (Nat.toDigits 10 b.toNat) = some b :=
  numberByte_of_digitsValue (List.ne_nil_of_length_pos (Nat.length_toDigits_pos)) (digitsValue_toDigits b.toNat)

theorem numberByte_hexDigits (b : Byte) : numberByte 16 (hexDigits b) = some b := by
  have hb : b.toNat < 256 := b.isLt
  apply numberByte_of_digitsValue (by simp [hexDigits])
  simp only [hexDigits, List.map, digitsValue, digitValue_sixteen_digitChar _ (by omega : b.toNat / 16 < 16),
    digitValue_sixteen_digitChar _ (by omega : b.toNat % 16 < 16), Option.some.injEq]
  omega

/-! The characters of a literal. -/

/-- A byte's character has the byte as its code. -/
theorem toNat_byteChar (b : Byte) : (Char.ofNat b.toNat).toNat = b.toNat := by
  have hb : b.toNat < 256 := b.isLt
  rw [Char.toNat_ofNat, if_pos (.inl (by omega))]

/-- The characters of a decimal numeral are the digits 0 to 9. -/
theorem toNat_of_mem_toDigits {n : Nat} {c : Char} (h : c ∈ Nat.toDigits 10 n) : 48 ≤ c.toNat ∧ c.toNat ≤ 57 := by
  have hdigit := Nat.isDigit_of_mem_toDigits (by decide) (by decide) h
  simp only [Char.isDigit, Bool.and_eq_true, decide_eq_true_eq] at hdigit
  exact hdigit

/-- The characters of a hexadecimal numeral lie between 0 and F, and the semicolon is none of them. -/
theorem toNat_of_mem_hexDigits {b : Byte} {c : Char} (h : c ∈ hexDigits b) : 48 ≤ c.toNat ∧ c.toNat ≤ 70 ∧ c.toNat ≠ 59 := by
  have hb : b.toNat < 256 := b.isLt
  have key : ∀ d < 16, 48 ≤ (Nat.digitChar d).toUpper.toNat ∧ (Nat.digitChar d).toUpper.toNat ≤ 70 ∧
      (Nat.digitChar d).toUpper.toNat ≠ 59 := by decide
  simp only [hexDigits, List.map, List.mem_cons, List.not_mem_nil, or_false] at h
  obtain rfl | rfl := h
  · exact key _ (by omega)
  · exact key _ (by omega)

/-- Above the quotes only the semicolon is special. -/
theorem isSpecial_eq_false {c : Char} (h : 48 ≤ c.toNat) (hs : c.toNat ≠ 59) : isSpecial c = false := by
  simp only [isSpecial, isBlank, Bool.or_eq_false_iff, beq_eq_false_iff_ne]
  omega

theorem isBlank_eq_false {c : Char} (h : 33 ≤ c.toNat) : isBlank c = false := by
  simp only [isBlank, Bool.or_eq_false_iff, beq_eq_false_iff_ne]
  omega

/-! The forms of the byte operand (30_encoding.md R90). -/

/-- A text of decimal digits is read as a decimal number: neither a quote nor an `x` is among its characters. -/
theorem byteOperand_of_digits {t : List Char} (h : ∀ c ∈ t, c.toNat ≠ 39 ∧ c.toNat ≠ 120) : byteOperand t = numberByte 10 t := by
  match t with
  | [] => rfl
  | [_] => rfl
  | [z, x] => simp [byteOperand, (h x (by simp)).2]
  | [q, c, q'] => simp [byteOperand, (h q (by simp)).1, (h c (by simp)).2]
  | z :: x :: _ :: _ :: _ => simp [byteOperand, (h x (by simp)).2]

theorem byteOperand_toDigits (b : Byte) : byteOperand (Nat.toDigits 10 b.toNat) = some b := by
  rw [byteOperand_of_digits fun c hc => by have := toNat_of_mem_toDigits hc; omega, numberByte_toDigits]

theorem byteOperand_hexDigits (b : Byte) : byteOperand ('0' :: 'x' :: hexDigits b) = some b := numberByte_hexDigits b

theorem isPrintable_byteChar {b : Byte} (h : 0x20 ≤ b.toNat) (h' : b.toNat ≤ 0x7E) : isPrintable (Char.ofNat b.toNat) = true := by
  simp [isPrintable, toNat_byteChar, h, h']

theorem byteOperand_character {b : Byte} (h : 0x20 ≤ b.toNat) (h' : b.toNat ≤ 0x7E) :
    byteOperand [Char.ofNat 39, Char.ofNat b.toNat, Char.ofNat 39] = some b := by
  have hb : BitVec.ofNat 8 (Char.ofNat b.toNat).toNat = b := by rw [toNat_byteChar, BitVec.ofNat_toNat, BitVec.setWidth_eq]
  rw [byteOperand, if_pos ⟨rfl, rfl⟩, if_pos (isPrintable_byteChar h h'), hb]

/-! The lines of one command with an operand. -/

/-- A text without special characters is an operand the comment rule and the trimming keep. -/
theorem assembleLine_plainOperand {m operand : List Char} (hm : ∀ c ∈ m, isSpecial c = false) (hne : m ≠ [])
    (ho : operand ≠ []) (h : ∀ c ∈ operand, isSpecial c = false) :
    assembleLine (m ++ ' ' :: operand) = assembleCommand (m.map Char.toUpper) operand := by
  have hblank : ∀ c ∈ operand, isBlank c = false := fun c hc => by
    have hc := h c hc
    simp only [isSpecial, Bool.or_eq_false_iff] at hc
    obtain ⟨⟨⟨hb, -⟩, -⟩, -⟩ := hc
    exact hb
  have hkept : stripComment false operand = operand := by
    have := stripComment_false_append h []
    simpa using this
  exact assembleLine_operand hm hne hkept ho (fun c hc => hblank c (List.mem_of_mem_head? hc))
    (fun c hc => hblank c (List.mem_of_getLast? hc))

/-- PPUSH and TSTEP assemble to their word over the byte read. -/
theorem assembleCommand_byte {m operand : List Char} {word : Word16} {b : Byte}
    (hm : m = "PPUSH".toList ∧ word = 0x3000 ∨ m = "TSTEP".toList ∧ word = 0x6000) (h : byteOperand operand = some b) :
    assembleCommand m operand = .ok [word ||| b.setWidth 16] := by
  obtain ⟨rfl, rfl⟩ | ⟨rfl, rfl⟩ := hm
  · have hcommand : assembleCommand "PPUSH".toList operand = asmOperand (byteOperand operand) fun b => [encode (.ppush b)] := rfl
    rw [hcommand, h, asmOperand, encode_ppush]
  · have hcommand : assembleCommand "TSTEP".toList operand = asmOperand (byteOperand operand) fun b => [encode (.tstep b)] := rfl
    rw [hcommand, h, asmOperand, encode_tstep]

/-! String literals (30_encoding.md R92). -/

/-- A plain character stands for its code. -/
theorem stringBody_plain {c : Char} (hq : c.toNat ≠ 34) (hb : c.toNat ≠ 92) (hp : isPrintable c = true) (t : List Char) :
    stringBody (c :: t) = (stringBody t).map fun bs => BitVec.ofNat 8 c.toNat :: bs := by
  match t with
  | [] => simp [stringBody, hq]
  | [_] => simp [stringBody, hq, hb, hp]
  | [_, _] => simp [stringBody, hq, hb, hp]
  | _ :: _ :: _ :: _ => simp [stringBody, hq, hb, hp]

/-- An escape stands for the byte its digits give. -/
theorem stringBody_escape (b : Byte) (t : List Char) :
    stringBody (Char.ofNat 92 :: 'x' :: hexDigits b ++ t) = (stringBody t).map fun bs => b :: bs := by
  have hdigits : numberByte 16 [(Nat.digitChar (b.toNat / 16)).toUpper, (Nat.digitChar (b.toNat % 16)).toUpper] = some b :=
    numberByte_hexDigits b
  show stringBody (Char.ofNat 92 :: 'x' :: (Nat.digitChar (b.toNat / 16)).toUpper :: (Nat.digitChar (b.toNat % 16)).toUpper :: t) = _
  rw [stringBody, if_pos (show (Char.ofNat 92).toNat = 92 from rfl), if_pos (show 'x'.toNat = 120 from rfl), hdigits]

/-- What may stand plain is printable and neither the quote nor the backslash. -/
theorem plainByte_iff {b : Byte} : plainByte b = true ↔ 0x20 ≤ b.toNat ∧ b.toNat ≤ 0x7E ∧ b.toNat ≠ 34 ∧ b.toNat ≠ 92 :=
  decide_eq_true_iff

/-- A byte is written as its own character only when it may stand plain. -/
theorem literalPiece_cases (plain : Bool) (b : Byte) :
    (plainByte b = true ∧ literalPiece plain b = [Char.ofNat b.toNat]) ∨ literalPiece plain b = Char.ofNat 92 :: 'x' :: hexDigits b := by
  unfold literalPiece
  split
  · next h => exact .inl ⟨(Bool.and_eq_true_iff.mp h).2, rfl⟩
  · exact .inr rfl

/-- A byte's piece of a literal is read as the byte, however it is written. -/
theorem stringBody_literalPiece (plain : Bool) (b : Byte) (t : List Char) :
    stringBody (literalPiece plain b ++ t) = (stringBody t).map fun bs => b :: bs := by
  obtain ⟨hplain, hpiece⟩ | hpiece := literalPiece_cases plain b
  · obtain ⟨hlow, hhigh, hquote, hbackslash⟩ := plainByte_iff.mp hplain
    rw [hpiece, List.singleton_append, stringBody_plain (by rwa [toNat_byteChar]) (by rwa [toNat_byteChar])
      (isPrintable_byteChar hlow hhigh), toNat_byteChar, BitVec.ofNat_toNat, BitVec.setWidth_eq]
  · rw [hpiece, stringBody_escape]

/-- The pieces of a literal up to its closing quote are read as their bytes, in order. -/
theorem stringBody_literal (p : List (Bool × Byte)) :
    stringBody (p.flatMap (fun x => literalPiece x.1 x.2) ++ [Char.ofNat 34]) = some (p.map Prod.snd) := by
  induction p with
  | nil => rfl
  | cons x p ih => rw [List.flatMap_cons, List.append_assoc, stringBody_literalPiece, ih]; rfl

/-- No quote stands inside a literal. -/
theorem toNat_ne_quote_of_mem_literalPiece {plain : Bool} {b : Byte} {c : Char} (h : c ∈ literalPiece plain b) : c.toNat ≠ 34 := by
  obtain ⟨hplain, hpiece⟩ | hpiece := literalPiece_cases plain b
  · obtain rfl : c = Char.ofNat b.toNat := by simpa [hpiece] using h
    obtain ⟨-, -, hquote, -⟩ := plainByte_iff.mp hplain
    rwa [toNat_byteChar]
  · rw [hpiece, List.mem_cons, List.mem_cons] at h
    obtain rfl | rfl | h := h
    · decide
    · decide
    · have := toNat_of_mem_hexDigits h; omega

/-- A line of PSTR or TSTR with a literal assembles as that command over the literal's bytes. -/
theorem assembleLine_stringLiteral {m : List Char} (hm : m.all (fun c => !isSpecial c) = true) (hne : m ≠ []) (p : List (Bool × Byte)) :
    assembleLine (m ++ ' ' :: stringLiteral p) = assembleCommand (m.map Char.toUpper) (stringLiteral p) := by
  have hbody : ∀ c ∈ p.flatMap (fun x => literalPiece x.1 x.2), c.toNat ≠ 34 := fun c hc => by
    obtain ⟨x, -, hx⟩ := List.mem_flatMap.mp hc
    exact toNat_ne_quote_of_mem_literalPiece hx
  refine assembleLine_operand (fun c hc => by simpa using List.all_eq_true.mp hm c hc) hne (stripComment_literal rfl hbody)
    (by simp [stringLiteral]) ?head ?last
  case head => intro c hc; obtain rfl : Char.ofNat 34 = c := Option.some.inj hc; decide
  case last =>
    intro c hc
    rw [stringLiteral, List.getLast?_concat] at hc
    obtain rfl : Char.ofNat 34 = c := Option.some.inj hc
    decide

theorem stringOperand_stringLiteral (p : List (Bool × Byte)) : stringOperand (stringLiteral p) = some (p.map Prod.snd) :=
  stringBody_literal p

/-! The obligations about the assembler. -/

/-- Settles O59: each of the three forms is kept by the comment rule and reads back as its byte. -/
theorem assemblerReadsEveryByte : Obligations.AssemblerReadsEveryByte := by
  unfold Obligations.AssemblerReadsEveryByte
  intro m word hm b
  have hspecial : ∀ c ∈ m, isSpecial c = false := by
    obtain ⟨hm, -⟩ | ⟨hm, -⟩ := hm
    · exact not_special_of_toUpper hm (by decide)
    · exact not_special_of_toUpper hm (by decide)
  have hne : m ≠ [] := by
    rintro rfl
    obtain ⟨hm, -⟩ | ⟨hm, -⟩ := hm <;> cases hm
  refine ⟨?decimal, ?hexadecimal, fun hlow hhigh => ?character⟩
  case decimal =>
    rw [assembleLine_plainOperand hspecial hne (List.ne_nil_of_length_pos Nat.length_toDigits_pos) fun c hc => ?digits,
      assembleCommand_byte hm (byteOperand_toDigits b)]
    case digits =>
      have hdigit := toNat_of_mem_toDigits hc
      exact isSpecial_eq_false (by omega) (by omega)
  case hexadecimal =>
    rw [assembleLine_plainOperand hspecial hne (by simp) fun c hc => ?digits, assembleCommand_byte hm (byteOperand_hexDigits b)]
    case digits =>
      obtain rfl | rfl | hc : c = '0' ∨ c = 'x' ∨ c ∈ hexDigits b := by simpa using hc
      · decide
      · decide
      · obtain ⟨hlow, -, hsemicolon⟩ := toNat_of_mem_hexDigits hc
        exact isSpecial_eq_false hlow hsemicolon
  case character =>
    have hkept : stripComment false [Char.ofNat 39, Char.ofNat b.toNat, Char.ofNat 39] =
        [Char.ofNat 39, Char.ofNat b.toNat, Char.ofNat 39] := by
      rw [stripComment, if_pos ⟨rfl, rfl⟩]; rfl
    refine (assembleLine_operand hspecial hne hkept (by simp) ?_ ?_).trans (assembleCommand_byte hm (byteOperand_character hlow hhigh))
    · intro c hc; obtain rfl : Char.ofNat 39 = c := Option.some.inj hc; decide
    · intro c hc; obtain rfl : Char.ofNat 39 = c := Option.some.inj hc; decide

/-- Settles O60: a literal is kept by the comment rule and read piece by piece. -/
theorem stringLiteralsExpandByteByByte : Obligations.StringLiteralsExpandByteByByte := by
  unfold Obligations.StringLiteralsExpandByteByByte
  refine ⟨fun p => ⟨?pstr, ?tstr⟩, ?words⟩
  case pstr =>
    have hcommand : assembleCommand "PSTR".toList (stringLiteral p) = asmOperand (stringOperand (stringLiteral p)) pstr := rfl
    refine (assembleLine_stringLiteral (m := "PSTR".toList) (by decide) (by decide) p).trans (hcommand.trans ?_)
    rw [stringOperand_stringLiteral, asmOperand, pstr, List.map_map]
    simp [Function.comp_def, encode_ppush]
  case tstr =>
    have hcommand : assembleCommand "TSTR".toList (stringLiteral p) = asmOperand (stringOperand (stringLiteral p)) tstr := rfl
    refine (assembleLine_stringLiteral (m := "TSTR".toList) (by decide) (by decide) p).trans (hcommand.trans ?_)
    rw [stringOperand_stringLiteral, asmOperand, tstr, List.map_map]
    simp [Function.comp_def, encode_tstep]
  case words => decide +kernel

end Sys2Proof.Machine
